-- ==== Sys2Proof/Word.lean ====
section
/-! DEFINITION. The value types of CORE (00_scope.md R7: unsigned bit vectors of a stated width) and its two small
fixed sets of names, the symbols and the message buffers. -/

namespace Sys2Proof

abbrev Bit := BitVec 1
abbrev Byte := BitVec 8
abbrev Half := BitVec 16
abbrev Payload := BitVec 24
abbrev Codeword := BitVec 32

/-- A transmitted phase value (30_encoding.md R60): negative phase (bit value 0) or positive phase (bit value 1).
Its line pattern is `Machine.symbolByte`. -/
inductive Symbol where
  | neg
  | pos
  deriving DecidableEq, Repr, Inhabited

/-- A message buffer (10_state.md R30, 92_eei_decisions.md D25): `id` is buffer 0, the identity beacon; `ts` is
buffer 1, the time-sync beacon. `sel` uses the same coding (10_state.md R24). -/
inductive BufSel where
  | id
  | ts
  deriving DecidableEq, Repr, Inhabited

end Sys2Proof
end

