-- ==== Sys2Proof/Machine/Params.lean ====
section
/-! DEFINITION. The fixed constants of 00_scope.md R5, the document's literals, and the two symbol patterns of
30_encoding.md R60. The counts and offsets of the frame (104, 0..3, 4..19, 20..99, 100..103; 32 data and 8 flush bits)
stand as literals where they are used. -/

namespace Sys2Proof.Machine

/-- SYM_NEG -/
def symNeg : Byte := 0xAA
/-- SYM_POS -/
def symPos : Byte := 0x55
/-- POLY32 -/
def poly32 : BitVec 32 := 0xEDB88320
/-- INIT32 -/
def init32 : BitVec 32 := 0xFFFFFFFF
/-- POLY8 -/
def poly8 : BitVec 8 := 0xE0
/-- INIT8 -/
def init8 : BitVec 8 := 0xFF
/-- POLYA -/
def polyA : BitVec 9 := 0x1AF
/-- POLYB -/
def polyB : BitVec 9 := 0x11D
/-- ID_MOD -/
def idMod : Nat := 10000000
/-- TS_TAG -/
def tsTag : Payload := 0xA
/-- CYC_MOD -/
def cycMod : Nat := 667
/-- GAP_BASE -/
def gapBase : Half := 10

/-- The line pattern of a symbol (R60). -/
def symbolByte : Symbol → Byte
  | .neg => symNeg
  | .pos => symPos

end Sys2Proof.Machine
end

