-- ==== Sys2Proof/Machine/Flags.lean ====
section
/-! DEFINITION. The flag and counter computations of the scheduler and the tick (44_scheduler.md R133, R135, R138,
R144). -/

namespace Sys2Proof.Machine

/-- `nxt_sync <- (cyc == 666)`: the counter is about to wrap to 0 (R135). -/
def nextSync (cyc : BitVec 10) : Bool := cyc == 666

/-- `(cyc + 1) umod 667` as an integer remainder (R135, R144 b). Entry 14. -/
def cycNext (cyc : BitVec 10) : BitVec 10 := BitVec.ofNat 10 ((cyc.toNat + 1) % cycMod)

/-- `led`: set, then cleared on the cycle whose next transmission is the time-sync beacon (R135). -/
def ledAfter (nxtSync : Bool) : Bool := if nxtSync then false else true

/-- `now +_16 10 +_16 zext_16(jit)` (R135). -/
def deadlineOf (now : Half) (jit : BitVec 4) : Half := now + gapBase + jit.setWidth 16

/-- The wrap test `deadline <=u now` (R135). -/
def wrapsBefore (deadline now : Half) : Bool := decide (deadline ≤ now)

/-- The epoch value to embed: `epoch +_16 1` when the counter wraps before the deadline, else `epoch` (R135). -/
def epochAt (epoch deadline now : Half) : Half := if wrapsBefore deadline now then epoch + 1 else epoch

/-- The drain has sent its last unit: the new `idx` is 104 (R133). -/
def drained (idx : BitVec 7) : Bool := idx == 104

/-- The counter overflowed: its new value is 0 (R138). -/
def tickWrapped (tickCnt : Half) : Bool := tickCnt == 0

end Sys2Proof.Machine
end

