-- ==== Sys2Proof/Config.lean ====
section
/-! DEFINITION. What the spec leaves open for one device and one run (00_scope.md R6, 92_eei_decisions.md part 4):
each open parameter is a constant WITHOUT A BODY, so nothing can be proved about its value, and the choices of the
world outside CORE, one at a time, are `Turn`s. -/

namespace Sys2Proof

/-- One move of the interleaving (10_state.md R10): which agent takes the next atomic step, and with which input.
Entry 2. -/
inductive Turn where
  /-- SEQ takes its next step, the one `st` selects (44_scheduler.md R130). -/
  | seq
  /-- TICK takes its step TICK.ADV (44_scheduler.md R138). -/
  | tick
  /-- PHY drives its two status outputs at will (60_exceptions.md R172). -/
  | phy (ready busy : Bool)
  /-- ENV puts a new draw on `jitter_in`, a 4-bit port (10_state.md R12). -/
  | jitter (v : BitVec 4)
  /-- ENV drives `rst` (70_reset_and_hazards.md R180). -/
  | rst (level : Bool)
  deriving DecidableEq, Repr, Inhabited

/-- FREE VALUE: the n-th move where `State.turns` names none (R10: "interleave in any order"). Entry 2. -/
opaque Config.freeTurn : Nat → Turn

/-- FREE VALUE: the 12 bytes of the device's identity source, `uid` of R6. Entry 9. -/
opaque Config.uid : Vector Byte 12

/-- FREE VALUE: the 16 preamble symbols, `PREAMBLE` of R6, each one of the two symbols (92_eei_decisions.md D9).
Entry 9. -/
opaque Config.preamble : Vector Symbol 16

/-- FREE VALUE: the tick counter at the n-th draw of a reset ("any value", 10_state.md R34). Entry 10. -/
opaque Config.tickAtReset : Nat → Half

/-- FREE VALUE: `phy_ready` right after power-on ("any value", 10_state.md R34). Entry 10. -/
opaque Config.phyReadyAtReset : Bool

/-- FREE VALUE: `phy_busy` right after power-on ("any value", 10_state.md R34). Entry 10. -/
opaque Config.phyBusyAtReset : Bool

/-- FREE VALUE: `jitter_in` right after power-on, within the environment's contract 0..9 (10_state.md R12).
Entry 10. -/
opaque Config.jitterAtReset : Fin 10

end Sys2Proof
end

