-- ==== Sys2Proof/Syntax.lean ====
section
/-! DEFINITION. The 24 operations of CORE (30_encoding.md R69), one constructor per row of opcode_table.json in the
table's order. Operands are typed values passed by the caller (R70); none is encoded in the 5-bit word. -/

namespace Sys2Proof

inductive Instr where
  /-- CRC32.CLR, 40_checksum.md R80 -/
  | crc32Clr
  /-- CRC32.BIT d, R81 -/
  | crc32Bit (d : Bit)
  /-- CRC32.BYTE b, R82 -/
  | crc32Byte (b : Byte)
  /-- CRC32.FIN, R83 -/
  | crc32Fin
  /-- CRC8.CLR, R85 -/
  | crc8Clr
  /-- CRC8.BYTE b, R86 -/
  | crc8Byte (b : Byte)
  /-- CRC8.FIN, R87 -/
  | crc8Fin
  /-- ENC.CLR, 41_fec_encoder.md R100 -/
  | encClr
  /-- ENC.BIT d, R101 -/
  | encBit (d : Bit)
  /-- ENC.WORD buf, w, R102 -/
  | encWord (buf : BufSel) (w : Codeword)
  /-- FRM.CONST buf, 42_framer.md R110 -/
  | frmConst (buf : BufSel)
  /-- FRM.CODE buf, w, R111 -/
  | frmCode (buf : BufSel) (w : Codeword)
  /-- CW.MAKE p, 43_builders.md R120 -/
  | cwMake (p : Payload)
  /-- ID.BUILD, R121 -/
  | idBuild
  /-- TS.BUILD d, e, R122 -/
  | tsBuild (d e : Half)
  /-- SEQ.BOOT, 44_scheduler.md R131 -/
  | seqBoot
  /-- TX.BEGIN, R132 -/
  | txBegin
  /-- TX.UNIT, R133 -/
  | txUnit
  /-- TX.END, R134 -/
  | txEnd
  /-- PLAN.SNAP, R135 -/
  | planSnap
  /-- PLAN.BUILD, R136 -/
  | planBuild
  /-- WAIT, R137 -/
  | wait
  /-- TICK.ADV, R138 -/
  | tickAdv
  /-- EPOCH.INC, R139 -/
  | epochInc
  deriving DecidableEq, Repr

/-- The operand values that accompany an operation word, by kind (30_encoding.md R69 column "operands", R70: "typed
values passed by the caller: a 1-bit value is never widened silently"). Entry 5. -/
inductive Operand where
  | none
  | bit (d : Bit)
  | byte (b : Byte)
  | buf (buf : BufSel)
  | bufWord (buf : BufSel) (w : Codeword)
  | payload (p : Payload)
  | times (d e : Half)
  deriving DecidableEq, Repr, Inhabited

/-- An operation word with its operands: the bits of the word as a number (R70: a word has five bits, so a number from
32 up is no word and the decoder refuses it) and the caller's operand values. Entry 5. -/
structure OpWord where
  code : Nat
  arg  : Operand
  deriving DecidableEq, Repr, Inhabited

end Sys2Proof
end

