-- ==== Sys2Proof/WellFormed.lean ====
section
/-! DEFINITION. Which operation words, and which environment moves, the spec admits. Every term of `Instr` is well
formed: its operand types are exactly the operand widths of 30_encoding.md R69. -/

namespace Sys2Proof

/-- The operand kinds of R69, without values. -/
inductive OperandKind where
  | none
  | bit
  | byte
  | buf
  | bufWord
  | payload
  | times
  deriving DecidableEq, Repr

def Operand.kind : Operand → OperandKind
  | .none => .none
  | .bit _ => .bit
  | .byte _ => .byte
  | .buf _ => .buf
  | .bufWord _ _ => .bufWord
  | .payload _ => .payload
  | .times _ _ => .times

/-- The codes that name an operation, each with the kind of operands it takes (R69's table). -/
def operandKinds : List (Nat × OperandKind) :=
  [(0b00000, .none), (0b00001, .bit), (0b00010, .byte), (0b00011, .none), (0b00100, .none), (0b00101, .byte),
   (0b00110, .none), (0b00111, .none), (0b01000, .bit), (0b01001, .bufWord), (0b01010, .buf), (0b01011, .bufWord),
   (0b01100, .payload), (0b01101, .none), (0b01110, .times)] ++
  [(0b10000, .none), (0b10001, .none), (0b10010, .none), (0b10011, .none), (0b10100, .none), (0b10101, .none),
   (0b10110, .none), (0b11000, .none), (0b11001, .none)]

/-- The operand kind of a code; `none` for the codes 01111, 10111 and 11010 to 11111 that name nothing (R72 e) and for
numbers that are no 5-bit word. -/
def kindOfCode (code : Nat) : Option OperandKind := operandKinds.lookup code

/-- The number is a 5-bit word (R70). -/
def OpWord.fits (x : OpWord) : Bool := decide (x.code < 32)

/-- The code names an operation (R72 e). -/
def OpWord.named (x : OpWord) : Bool := (kindOfCode x.code).isSome

/-- The operands are of the kind the operation takes (R69, R70). -/
def OpWord.kindMatches (x : OpWord) : Bool := kindOfCode x.code == some x.arg.kind

def OpWord.wellFormed (x : OpWord) : Bool := x.fits && x.named && x.kindMatches

/-- A jitter draw is in the environment's contract (70_reset_and_hazards.md R185, P_JIT). -/
def jitterInContract (v : BitVec 4) : Bool := decide (v.toNat ≤ 9)

/-- The move keeps the environment's contract: a jitter draw is in 0..9 (30_encoding.md R72 d). -/
def Turn.wellFormed : Turn → Bool
  | .jitter v => jitterInContract v
  | .seq => true
  | .tick => true
  | .phy _ _ => true
  | .rst _ => true

end Sys2Proof
end

