-- ==== Sys2Proof/Decode.lean ====
section
/-! DEFINITION. The decoder of operation words (30_encoding.md R69 to R72), total and rejecting by name, and after it
the encoder, written from the same table. -/

namespace Sys2Proof

/-- Why the decoder refuses an operation word. -/
inductive Reject where
  /-- The number has bits above `op[4:0]`: no operation word (R70). -/
  | notFiveBits (code : Nat)
  /-- 01111, 10111 or 11010 to 11111: the code names no operation (R72 e: "a decoder of `op` refuses them"). -/
  | reservedCode (code : Nat)
  /-- The caller's operands are not of the kind this operation takes (R70). -/
  | operandKind (code : Nat)
  deriving DecidableEq, Repr

/-! How an operation reads its operands: by their kind, and not at all where the kind is another. -/

def readNone (i : Instr) : Operand → Option Instr
  | .none => some i
  | _ => none

def readBit (f : Bit → Instr) : Operand → Option Instr
  | .bit d => some (f d)
  | _ => none

def readByte (f : Byte → Instr) : Operand → Option Instr
  | .byte b => some (f b)
  | _ => none

def readBuf (f : BufSel → Instr) : Operand → Option Instr
  | .buf b => some (f b)
  | _ => none

def readBufWord (f : BufSel → Codeword → Instr) : Operand → Option Instr
  | .bufWord b w => some (f b w)
  | _ => none

def readPayload (f : Payload → Instr) : Operand → Option Instr
  | .payload p => some (f p)
  | _ => none

def readTimes (f : Half → Half → Instr) : Operand → Option Instr
  | .times d e => some (f d e)
  | _ => none

/-- A row of R69's table: the code, its operands with every bit zero, and how it reads operands. -/
structure OpRow where
  code : Nat
  zero : Operand
  read : Operand → Option Instr

/-- R69's table. Entry 5. -/
def opRows : List OpRow :=
  [⟨0b00000, .none, readNone .crc32Clr⟩,
   ⟨0b00001, .bit 0, readBit .crc32Bit⟩,
   ⟨0b00010, .byte 0, readByte .crc32Byte⟩,
   ⟨0b00011, .none, readNone .crc32Fin⟩,
   ⟨0b00100, .none, readNone .crc8Clr⟩,
   ⟨0b00101, .byte 0, readByte .crc8Byte⟩,
   ⟨0b00110, .none, readNone .crc8Fin⟩,
   ⟨0b00111, .none, readNone .encClr⟩,
   ⟨0b01000, .bit 0, readBit .encBit⟩,
   ⟨0b01001, .bufWord .id 0, readBufWord .encWord⟩,
   ⟨0b01010, .buf .id, readBuf .frmConst⟩,
   ⟨0b01011, .bufWord .id 0, readBufWord .frmCode⟩] ++
  [⟨0b01100, .payload 0, readPayload .cwMake⟩,
   ⟨0b01101, .none, readNone .idBuild⟩,
   ⟨0b01110, .times 0 0, readTimes .tsBuild⟩,
   ⟨0b10000, .none, readNone .seqBoot⟩,
   ⟨0b10001, .none, readNone .txBegin⟩,
   ⟨0b10010, .none, readNone .txUnit⟩,
   ⟨0b10011, .none, readNone .txEnd⟩,
   ⟨0b10100, .none, readNone .planSnap⟩,
   ⟨0b10101, .none, readNone .planBuild⟩,
   ⟨0b10110, .none, readNone .wait⟩,
   ⟨0b11000, .none, readNone .tickAdv⟩,
   ⟨0b11001, .none, readNone .epochInc⟩]

/-- The row of a code. -/
def rowOf (code : Nat) : Option OpRow := opRows.find? fun r => r.code == code

/-- The decoder. Entry 5. -/
def decode (x : OpWord) : Except Reject Instr :=
  if 32 ≤ x.code then .error (.notFiveBits x.code)
  else
    match rowOf x.code with
    | none => .error (.reservedCode x.code)
    | some r =>
      match r.read x.arg with
      | some i => .ok i
      | none => .error (.operandKind x.code)

/-- The encoder: the code of R69's table and the operands as the caller passes them. -/
def encode : Instr → OpWord
  | .crc32Clr => ⟨0b00000, .none⟩
  | .crc32Bit d => ⟨0b00001, .bit d⟩
  | .crc32Byte b => ⟨0b00010, .byte b⟩
  | .crc32Fin => ⟨0b00011, .none⟩
  | .crc8Clr => ⟨0b00100, .none⟩
  | .crc8Byte b => ⟨0b00101, .byte b⟩
  | .crc8Fin => ⟨0b00110, .none⟩
  | .encClr => ⟨0b00111, .none⟩
  | .encBit d => ⟨0b01000, .bit d⟩
  | .encWord buf w => ⟨0b01001, .bufWord buf w⟩
  | .frmConst buf => ⟨0b01010, .buf buf⟩
  | .frmCode buf w => ⟨0b01011, .bufWord buf w⟩
  | .cwMake p => ⟨0b01100, .payload p⟩
  | .idBuild => ⟨0b01101, .none⟩
  | .tsBuild d e => ⟨0b01110, .times d e⟩
  | .seqBoot => ⟨0b10000, .none⟩
  | .txBegin => ⟨0b10001, .none⟩
  | .txUnit => ⟨0b10010, .none⟩
  | .txEnd => ⟨0b10011, .none⟩
  | .planSnap => ⟨0b10100, .none⟩
  | .planBuild => ⟨0b10101, .none⟩
  | .wait => ⟨0b10110, .none⟩
  | .tickAdv => ⟨0b11000, .none⟩
  | .epochInc => ⟨0b11001, .none⟩

/-- The operands of a code, every bit of them zero: what a bare table word comes with, since the table gives the
operands no bits. -/
def zeroOperand (code : Nat) : Operand :=
  match rowOf code with
  | some r => r.zero
  | none => .none

/-- The operation word of the table word `w`, its operands zero. -/
def tableOpWord (w : Nat) : OpWord := ⟨w, zeroOperand w⟩

/-- What the decoder reads from the table word whose bits are `w` (op[4:0] in bits 4..0 of its one byte). The number
of bits is not needed: every table row is the same 5 bits, and a number with more is refused. -/
def decodeTableWord (_nbits w : Nat) : Option Instr :=
  match decode (tableOpWord w) with
  | .ok i => some i
  | .error _ => none

end Sys2Proof
end

