-- ==== Sys2Proof/Machine/State.lean ====
section
/-! DEFINITION. The machine's state, all of it, as plain data; the reasons a step can stop; the state right after
reset. Each field names the rule of 10_state.md that gives it; INVENTORY.md lists the same fields. -/

namespace Sys2Proof.Machine

/-- The sequencer state `st` (10_state.md R27), the analogue of a program counter. -/
inductive SeqState where
  | boot
  | txBegin
  | txUnit
  | txEnd
  | planSnap
  | planBuild
  | wait
  deriving DecidableEq, Repr, Inhabited

/-- The value an operation hands back to its caller (40_checksum.md R83, R87; 41_fec_encoder.md R101). Entry 6. -/
inductive Result where
  | none
  | word (v : BitVec 32)
  | byte (v : Byte)
  | symbols (a b : Byte)
  deriving DecidableEq, Repr, Inhabited

/-- BUF (10_state.md R30): one list of (offset, byte) per buffer, offsets strictly rising, no flat address
(20_memory.md R40). An offset that is not listed has no value (R47). Entry 8. -/
structure Memory where
  idBuf : List Host.Cell
  tsBuf : List Host.Cell
  deriving DecidableEq, Repr, Inhabited

/-- Why the machine stops with a fault. -/
inductive Fault where
  /-- Raised by TX.UNIT's read of a buffer byte that nothing has written (10_state.md R34, 20_memory.md R47,
  93_implementation_defined.md U11: "a read before the first write is a `fault`"). Safe. -/
  | unwrittenByte (buf : BufSel) (offset : Nat)
  /-- Raised by TX.UNIT's read of an offset above 103, which does not exist (20_memory.md R40). Safe. -/
  | noSuchOffset (buf : BufSel) (offset : Nat)
  deriving DecidableEq, Repr

/-- Why a step has no meaning. -/
inductive Refusal where
  /-- Raised by `exec` for an instruction that has no meaning yet; here by none. Safe. -/
  | notModelled (mnemonic : String)
  /-- Raised by PLAN.SNAP when it samples a `jitter_in` of 10 to 15 (30_encoding.md R72 d: "a model refuses a run
  that draws one"). Safe. -/
  | jitterOutOfContract (v : BitVec 4)
  /-- Raised by `step` for an issued word the decoder refuses (R72 e). Safe. -/
  | undecodable (why : Reject)
  deriving DecidableEq, Repr

structure State where
  -- datapath registers
  /-- `acc32`, R14 -/
  acc32 : BitVec 32
  /-- `acc8`, R15 -/
  acc8 : BitVec 8
  /-- `sr`, R16 -/
  sr : BitVec 9
  /-- `cw`, R17 -/
  cw : Codeword
  /-- `ident`, R18 -/
  ident : BitVec 24
  /-- `now`, R19 -/
  now : Half
  /-- `jit`, R19 -/
  jit : BitVec 4
  /-- `deadline`, R19 -/
  deadline : Half
  /-- `eval`, R19 -/
  eval : Half
  -- control, status, flags
  /-- `epoch`, R20 -/
  epoch : Half
  /-- `irq_mask`, R21 -/
  irqMask : Bool
  /-- `ovf_pending`, R22 -/
  ovfPending : Bool
  /-- `cyc`, R23 -/
  cyc : BitVec 10
  /-- `sel`, R24 -/
  sel : BufSel
  /-- `nxt_sync`, R25 -/
  nxtSync : Bool
  /-- `led`, R26, also the output port of R12 -/
  led : Bool
  -- sequencer
  /-- `st`, R27 -/
  st : SeqState
  /-- `idx`, R28 -/
  idx : BitVec 7
  -- memories
  /-- `BUF`, R30 -/
  mem : Memory
  /-- `PRE`, R31: 16 read-only symbols -/
  pre : Vector Symbol 16
  /-- `uid`, R32 and port R12: 12 read-only bytes -/
  uid : Vector Byte 12
  -- environment and ports (R12)
  /-- `tick_cnt`, R29, written by TICK alone -/
  tickCnt : Half
  /-- `jitter_in`, input -/
  jitterIn : BitVec 4
  /-- `phy_ready`, input -/
  phyReady : Bool
  /-- `phy_busy`, input -/
  phyBusy : Bool
  /-- `rst`, input (70_reset_and_hazards.md R180) -/
  rst : Bool
  /-- `phy_data`, output: the unit last driven -/
  phyData : Byte
  /-- `phy_send`, output strobe: this step handed a unit over -/
  phySend : Bool
  -- the model's own
  /-- the line trace of R11 (1): every unit handed to PhySend, oldest first -/
  line : List Byte
  /-- the result lines of the last operation that hands a value back. Entry 6. -/
  ret : Result
  /-- which agent moves next, and next after that; when empty the move is `Config.freeTurn draws`. Entry 2. -/
  turns : List Turn
  /-- how many free values have been drawn -/
  draws : Nat
  /-- an operation issued from outside at the datapath level. Entry 4. -/
  issue : Option OpWord
  deriving DecidableEq, Repr

/-- The machine right after the release of `rst` (10_state.md R34, 70_reset_and_hazards.md R180). Registers the table
marks unspecified are 0, and `deadline` 10 (entry 7); `tick_cnt`, the inputs, `uid` and PREAMBLE are free values
(entries 9 and 10). -/
def State.reset : State where
  acc32 := 0
  acc8 := 0
  sr := 0
  cw := 0
  ident := 0
  now := 0
  jit := 0
  deadline := 10
  eval := 0
  epoch := 0
  irqMask := false
  ovfPending := false
  cyc := 0
  sel := .id
  nxtSync := false
  led := false
  st := .boot
  idx := 0
  mem := ⟨[], []⟩
  pre := Config.preamble
  uid := Config.uid
  tickCnt := Config.tickAtReset 0
  jitterIn := BitVec.ofNat 4 Config.jitterAtReset.val
  phyReady := Config.phyReadyAtReset
  phyBusy := Config.phyBusyAtReset
  rst := false
  phyData := 0
  phySend := false
  line := []
  ret := .none
  turns := []
  draws := 1
  issue := none

end Sys2Proof.Machine
end

