-- ==== Sys2Proof/Machine/Operands.lean ====
section
/-! DEFINITION. Operand forms and data formats: bits and bytes of a value, `sym` and `parity` (00_scope.md R7), the
read-only spaces PRE and UID (20_memory.md R40), and the assembly of payloads and codewords (30_encoding.md R63, R65). -/

namespace Sys2Proof.Machine

/-- `v[i]` as a 1-bit value (R7). -/
def bitAt {n : Nat} (v : BitVec n) (i : Nat) : Bit := BitVec.ofBool (v.getLsbD i)

/-- The exclusive or of bits 0 to k-1 of v. -/
def parityBelow {n : Nat} (v : BitVec n) : Nat → Bool
  | 0 => false
  | k + 1 => parityBelow v k ^^ v.getLsbD k

/-- `parity(v)`: the exclusive or of all bits of v (R7). -/
def parity {n : Nat} (v : BitVec n) : Bool := parityBelow v n

/-- The symbol of a 1-bit value (30_encoding.md R60: parity 1 is the positive phase). -/
def symbolOf (p : Bool) : Symbol := if p then .pos else .neg

/-- `sym(p)` (R60): 0x55 for 1, 0xAA for 0. -/
def sym (p : Bool) : Byte := symbolByte (symbolOf p)

/-- `Uid(k)` (00_scope.md R8): byte k of the identity source. -/
def State.uidByte (s : State) (k : Fin 12) : Byte := s.uid[k]

/-- `Pre(k)` (R8): PREAMBLE[k] as the byte to store. -/
def State.preByte (s : State) (k : Fin 16) : Byte := symbolByte s.pre[k]

/-- `p[23:16]`, `p[15:8]`, `p[7:0]` (43_builders.md R120). -/
def payloadHigh (p : Payload) : Byte := p.extractLsb' 16 8
def payloadMid (p : Payload) : Byte := p.extractLsb' 8 8
def payloadLow (p : Payload) : Byte := p.extractLsb' 0 8

/-- `cw = (zext_32(payload) << 8) | zext_32(check)` (30_encoding.md R63). -/
def codewordOf (p : Payload) (check : Byte) : Codeword := (p.setWidth 32 <<< 8) ||| check.setWidth 32

/-- The time-sync payload `(0xA << 20) | (zext_24(e[3:0]) << 16) | zext_24(d)` (R65, 43_builders.md R122). -/
def tsPayload (d e : Half) : Payload :=
  (tsTag <<< 20) ||| ((e.extractLsb' 0 4).setWidth 24 <<< 16) ||| d.setWidth 24

/-- `(h umod 10000000)[23:0]` (43_builders.md R121). -/
def identityOf (h : BitVec 32) : BitVec 24 := BitVec.ofNat 24 (h.toNat % idMod)

/-- The bit encoder step k shifts in: data bits `w[31]` down to `w[0]`, then zeros (30_encoding.md R67). -/
def stepBit (w : Codeword) (k : Nat) : Bit := if k < 32 then bitAt w (31 - k) else 0

end Sys2Proof.Machine
end

