-- ==== Sys2Proof/Machine/Ops.lean ====
section
/-! DEFINITION. The shared operations: counted loops, reads and writes of BUF, PhySend, the guard of a step, taking
the tick interrupt, the turn list and reset. -/

namespace Sys2Proof.Machine

/-- `for k = 0 to n-1: f k`, upward, both ends included (00_scope.md R8). -/
def forUp {α : Type} : (n : Nat) → (Fin n → α → α) → α → α
  | 0, _, a => a
  | n + 1, f, a => f (Fin.last n) (forUp n (fun k => f k.castSucc) a)

/-! ### BUF -/

/-- The byte listed at an offset. -/
def cellAt (i : Nat) : List Host.Cell → Option Byte
  | [] => none
  | (j, v) :: rest => if i = j then some v else cellAt i rest

/-- The list with the byte at one offset replaced or added, offsets kept rising. -/
def cellSet (i : Nat) (v : Byte) : List Host.Cell → List Host.Cell
  | [] => [(i, v)]
  | (j, u) :: rest =>
    if i < j then (i, v) :: (j, u) :: rest
    else if i = j then (i, v) :: rest
    else (j, u) :: cellSet i v rest

/-- Offsets strictly rising, each from `lo` up and one that exists (20_memory.md R40). -/
def cellsWf (lo : Nat) : List Host.Cell → Bool
  | [] => true
  | (j, _) :: rest => decide (lo ≤ j) && decide (j < 104) && cellsWf (j + 1) rest

/-- One buffer's list. -/
def Memory.cells (m : Memory) : BufSel → List Host.Cell
  | .id => m.idBuf
  | .ts => m.tsBuf

/-- The canonical form: both lists strictly rising, no offset above 103. What an unlisted offset reads as is no value,
so no entry can equal it. Entry 8. -/
def Memory.wf (m : Memory) : Bool := cellsWf 0 m.idBuf && cellsWf 0 m.tsBuf

/-- What the byte at `(b, i)` reads as: the value of the latest write, or no value (R47). -/
def Memory.byte? (m : Memory) (b : BufSel) (i : Nat) : Option Byte := cellAt i (m.cells b)

/-- `MemWrite((b, i), 1, v)` on BUF; i is an offset that exists (R40, R41). -/
def Memory.write (m : Memory) (b : BufSel) (i : Fin 104) (v : Byte) : Memory :=
  match b with
  | .id => { m with idBuf := cellSet i.val v m.idBuf }
  | .ts => { m with tsBuf := cellSet i.val v m.tsBuf }

/-- `MemRead((b, i), 1)` (00_scope.md R8). An offset above 103 does not exist; a byte nothing has written has no
value. Entry 8. -/
def State.memRead (s : State) (b : BufSel) (i : Nat) : Except Fault Byte :=
  if i < 104 then
    match s.mem.byte? b i with
    | some v => .ok v
    | none => .error (.unwrittenByte b i)
  else .error (.noSuchOffset b i)

/-- `MemWrite((b, i), 1, v)` (R8). -/
def State.memWrite (s : State) (b : BufSel) (i : Fin 104) (v : Byte) : State :=
  { s with mem := s.mem.write b i v }

/-! ### Ports and steps -/

/-- `PhySend(v)`: hand one unit to the physical layer (R8, 10_state.md R12). Entry 12. -/
def State.sendUnit (s : State) (v : Byte) : State :=
  { s with phyData := v, phySend := true, line := s.line ++ [v] }

/-- A step whose guard is false is stuck: nothing happens (R8, 44_scheduler.md R130; the waits are busy-waits,
60_exceptions.md R171). Entry 3. -/
def whenEnabled (guard : Bool) (s : State) (effect : State → Host.Outcome State Fault Refusal) :
    Host.Outcome State Fault Refusal :=
  if guard then effect s else .next s

/-! ### The tick interrupt -/

/-- TAKING THE TICK INTERRUPT, its whole effect: one increment, the request cleared, nothing saved, no mode changed,
no transfer of control (44_scheduler.md R139, 60_exceptions.md R163). Its return is nothing at all (R164). -/
def State.takeTickInterrupt (s : State) : State :=
  { s with epoch := s.epoch + 1, ovfPending := false }

/-- Raising the interrupt: taken at once when not masked, else latched; a second request merges with the first
(44_scheduler.md R138, 60_exceptions.md R161, R162). -/
def State.raiseTickInterrupt (s : State) : State :=
  if s.irqMask then { s with ovfPending := true } else s.takeTickInterrupt

/-! ### Turns and reset -/

/-- The next move: the head of the list, or a free value. Entry 2. -/
def State.turn (s : State) : Turn :=
  match s.turns with
  | t :: _ => t
  | [] => Config.freeTurn s.draws

/-- The next move is used up. -/
def State.dropTurn (s : State) : State :=
  match s.turns with
  | _ :: ts => { s with turns := ts }
  | [] => { s with draws := s.draws + 1 }

/-- Every piece of CORE's state at its reset value, `tick_cnt` any value; the identity source, PREAMBLE, the inputs,
the line trace so far and the turns to come are no state of CORE (10_state.md R34, 70_reset_and_hazards.md R180).
Entry 11. -/
def State.toReset (s : State) : State :=
  { State.reset with
    pre := s.pre
    uid := s.uid
    tickCnt := Config.tickAtReset s.draws
    jitterIn := s.jitterIn
    phyReady := s.phyReady
    phyBusy := s.phyBusy
    line := s.line
    turns := s.turns
    draws := s.draws + 1 }

/-- `rst` driven to a level: asserted, CORE is at its reset values and held there; released, it runs (R180). -/
def State.driveRst (s : State) (level : Bool) : State :=
  if level then { s.toReset with rst := true } else { s with rst := false }

end Sys2Proof.Machine
end

