-- ==== Sys2Proof/Machine/Checksum.lean ====
section
/-! DEFINITION. The checksum operations (40_checksum.md R80 to R88). -/

namespace Sys2Proof.Machine

/-- One bit step of CRC-32: exclusive-or the input bit into bit 0, sample bit 0, shift right, exclusive-or POLY32 into
the shifted value if the sampled bit was 1 (R81; 90_conflicts.md C1, entry 16). -/
def crc32Step (acc : BitVec 32) (d : Bit) : BitVec 32 :=
  let x := acc ^^^ d.setWidth 32
  if x.getLsbD 0 then (x >>> 1) ^^^ poly32 else x >>> 1

/-- One shift iteration of CRC-8 (R86). -/
def crc8Shift (acc : BitVec 8) : BitVec 8 :=
  if acc.getLsbD 0 then (acc >>> 1) ^^^ poly8 else acc >>> 1

/-- R80 -/
def State.crc32Clr (s : State) : State := { s with acc32 := init32 }

/-- R81 -/
def State.crc32Bit (s : State) (d : Bit) : State := { s with acc32 := crc32Step s.acc32 d }

/-- R82: eight bit steps, bit 0 first. Entry 16. -/
def State.crc32Byte (s : State) (b : Byte) : State := forUp 8 (fun k t => t.crc32Bit (bitAt b k.val)) s

/-- R83: the result; `acc32` is not changed. -/
def State.crc32Result (s : State) : BitVec 32 := ~~~s.acc32

/-- R85 -/
def State.crc8Clr (s : State) : State := { s with acc8 := init8 }

/-- R86 -/
def State.crc8Byte (s : State) (b : Byte) : State :=
  { s with acc8 := forUp 8 (fun _ acc => crc8Shift acc) (s.acc8 ^^^ b) }

/-- R87: the result; `acc8` is not changed. -/
def State.crc8Result (s : State) : Byte := ~~~s.acc8

/-- CRC32.CLR, R80 -/
def execCrc32Clr (s : State) : Host.Outcome State Fault Refusal := .next s.crc32Clr

/-- CRC32.BIT d, R81 -/
def execCrc32Bit (d : Bit) (s : State) : Host.Outcome State Fault Refusal := .next (s.crc32Bit d)

/-- CRC32.BYTE b, R82 -/
def execCrc32Byte (b : Byte) (s : State) : Host.Outcome State Fault Refusal := .next (s.crc32Byte b)

/-- CRC32.FIN, R83: the result is handed back on the result lines. Entry 6. -/
def execCrc32Fin (s : State) : Host.Outcome State Fault Refusal := .next { s with ret := .word s.crc32Result }

/-- CRC8.CLR, R85 -/
def execCrc8Clr (s : State) : Host.Outcome State Fault Refusal := .next s.crc8Clr

/-- CRC8.BYTE b, R86 -/
def execCrc8Byte (b : Byte) (s : State) : Host.Outcome State Fault Refusal := .next (s.crc8Byte b)

/-- CRC8.FIN, R87. Entry 6. -/
def execCrc8Fin (s : State) : Host.Outcome State Fault Refusal := .next { s with ret := .byte s.crc8Result }

end Sys2Proof.Machine
end

