-- ==== Sys2Proof/Machine/Encoder.lean ====
section
/-! DEFINITION. The FEC encoder operations (41_fec_encoder.md R100 to R105). -/

namespace Sys2Proof.Machine

/-- `sr <- ((sr << 1) | zext_9(d))[8:0]`: bit 0 is the newest bit, the old bit 8 is discarded (R101). -/
def encShift (sr : BitVec 9) (d : Bit) : BitVec 9 := (sr <<< 1) ||| d.setWidth 9

/-- The symbol of the POLYA parity of the shifted register (R101). -/
def symbolA (sr : BitVec 9) : Byte := sym (parity (sr &&& polyA))

/-- The symbol of the POLYB parity of the shifted register (R101). -/
def symbolB (sr : BitVec 9) : Byte := sym (parity (sr &&& polyB))

/-- R100 -/
def State.encClr (s : State) : State := { s with sr := 0 }

/-- R101: the register after the shift; the two symbols are `symbolA` and `symbolB` of it. -/
def State.encBit (s : State) (d : Bit) : State := { s with sr := encShift s.sr d }

/-- One step of ENC.WORD: shift in a bit, store its two symbols at offsets 20+2k and 21+2k (R102). -/
def State.encStep (s : State) (buf : BufSel) (k : Fin 40) (d : Bit) : State :=
  let t := s.encBit d
  (t.memWrite buf ⟨20 + 2 * k.val, by omega⟩ (symbolA t.sr)).memWrite buf
    ⟨21 + 2 * k.val, by omega⟩ (symbolB t.sr)

/-- R102: ENC.CLR, 32 data steps most significant bit first, 8 flush steps. -/
def State.encWord (s : State) (buf : BufSel) (w : Codeword) : State :=
  forUp 40 (fun k t => t.encStep buf k (stepBit w k.val)) s.encClr

/-- ENC.CLR, R100 -/
def execEncClr (s : State) : Host.Outcome State Fault Refusal := .next s.encClr

/-- ENC.BIT d, R101: emits the POLYA symbol, then the POLYB symbol. Entry 6. -/
def execEncBit (d : Bit) (s : State) : Host.Outcome State Fault Refusal :=
  let t := s.encBit d
  .next { t with ret := .symbols (symbolA t.sr) (symbolB t.sr) }

/-- ENC.WORD buf, w, R102 -/
def execEncWord (buf : BufSel) (w : Codeword) (s : State) : Host.Outcome State Fault Refusal :=
  .next (s.encWord buf w)

end Sys2Proof.Machine
end

