-- ==== Sys2Proof/Machine/Framer.lean ====
section
/-! DEFINITION. The framer operations (42_framer.md R110 to R112). -/

namespace Sys2Proof.Machine

/-- R110: training, preamble, trailer; offsets 20..99 keep what they had. -/
def State.frmConst (s : State) (buf : BufSel) : State :=
  let train := forUp 4 (fun i t => t.memWrite buf ⟨i.val, by omega⟩ symNeg) s
  let pre := forUp 16 (fun k t => t.memWrite buf ⟨4 + k.val, by omega⟩ (t.preByte k)) train
  forUp 4 (fun i t => t.memWrite buf ⟨100 + i.val, by omega⟩ symNeg) pre

/-- R111: ENC.WORD buf, w. -/
def State.frmCode (s : State) (buf : BufSel) (w : Codeword) : State := s.encWord buf w

/-- FRM.CONST buf, R110 -/
def execFrmConst (buf : BufSel) (s : State) : Host.Outcome State Fault Refusal := .next (s.frmConst buf)

/-- FRM.CODE buf, w, R111 -/
def execFrmCode (buf : BufSel) (w : Codeword) (s : State) : Host.Outcome State Fault Refusal :=
  .next (s.frmCode buf w)

end Sys2Proof.Machine
end

