-- ==== Sys2Proof/Machine/Builder.lean ====
section
/-! DEFINITION. The codeword, identity beacon and time-sync builders (43_builders.md R120 to R122). -/

namespace Sys2Proof.Machine

/-- R120: CRC-8 over the three payload bytes, most significant first, then the codeword. Entry 17. -/
def State.cwMake (s : State) (p : Payload) : State :=
  let t := ((s.crc8Clr.crc8Byte (payloadHigh p)).crc8Byte (payloadMid p)).crc8Byte (payloadLow p)
  { t with cw := codewordOf p t.crc8Result }

/-- The hash half of ID.BUILD: CRC-32 over Uid(0) to Uid(11), then the identity (R121). Entry 19. -/
def State.deriveIdent (s : State) : State :=
  let t := forUp 12 (fun k u => u.crc32Byte (u.uidByte k)) s.crc32Clr
  { t with ident := identityOf t.crc32Result }

/-- R121 -/
def State.idBuild (s : State) : State :=
  let t := s.deriveIdent
  let u := (t.cwMake t.ident).frmConst .id
  u.frmCode .id u.cw

/-- R122: only `e[3:0]` is used; the constant regions of buffer 1 are not touched. -/
def State.tsBuild (s : State) (d e : Half) : State :=
  let t := s.cwMake (tsPayload d e)
  t.frmCode .ts t.cw

/-- CW.MAKE p, R120 -/
def execCwMake (p : Payload) (s : State) : Host.Outcome State Fault Refusal := .next (s.cwMake p)

/-- ID.BUILD, R121 -/
def execIdBuild (s : State) : Host.Outcome State Fault Refusal := .next s.idBuild

/-- TS.BUILD d, e, R122 -/
def execTsBuild (d e : Half) (s : State) : Host.Outcome State Fault Refusal := .next (s.tsBuild d e)

end Sys2Proof.Machine
end

