-- ==== Sys2Proof/Machine/Scheduler.lean ====
section
/-! DEFINITION. The sequencer's seven steps (44_scheduler.md R130 to R137). Each is enabled when `st` has its row's
value and its guard holds; otherwise SEQ is stuck and nothing changes (entry 3). -/

namespace Sys2Proof.Machine

/-- SEQ.BOOT, R131: ID.BUILD, FRM.CONST 1, `st <- TX_BEGIN`. -/
def execSeqBoot (s : State) : Host.Outcome State Fault Refusal :=
  whenEnabled (s.st == .boot) s fun s =>
    .next { s.idBuild.frmConst .ts with st := .txBegin }

/-- TX.BEGIN, R132: mask the tick interrupt, start at offset 0. -/
def execTxBegin (s : State) : Host.Outcome State Fault Refusal :=
  whenEnabled (s.st == .txBegin) s fun s =>
    .next { s with irqMask := true, idx := 0, st := .txUnit }

/-- TX.UNIT, R133: guard `phy_ready` = 1; read one byte of the selected buffer, send it, advance. -/
def execTxUnit (s : State) : Host.Outcome State Fault Refusal :=
  whenEnabled (s.st == .txUnit && s.phyReady) s fun s =>
    match s.memRead s.sel s.idx.toNat with
    | .error f => .fault f
    | .ok v =>
      let next := s.idx + 1
      .next { s.sendUnit v with idx := next, st := if drained next then .txEnd else s.st }

/-- TX.END, R134: guard `phy_busy` = 0; lift the mask and take a latched tick interrupt in the same step. -/
def execTxEnd (s : State) : Host.Outcome State Fault Refusal :=
  whenEnabled (s.st == .txEnd && !s.phyBusy) s fun s =>
    let t : State := { s with irqMask := false }
    let u : State := if t.ovfPending then t.takeTickInterrupt else t
    .next { u with st := .planSnap }

/-- The effect of PLAN.SNAP on a draw within the contract (R135): one read of the counter, of `epoch` and of the draw. -/
def State.snap (s : State) : State :=
  let sync := nextSync s.cyc
  let deadline := deadlineOf s.tickCnt s.jitterIn
  { s with
    nxtSync := sync
    cyc := cycNext s.cyc
    led := ledAfter sync
    now := s.tickCnt
    jit := s.jitterIn
    deadline := deadline
    eval := if sync then epochAt s.epoch deadline s.tickCnt else s.eval
    st := .planBuild }

/-- PLAN.SNAP, R135. A draw above 9 is outside the environment's contract and refused (30_encoding.md R72 d, entry
13). -/
def execPlanSnap (s : State) : Host.Outcome State Fault Refusal :=
  whenEnabled (s.st == .planSnap) s fun s =>
    if jitterInContract s.jitterIn then .next s.snap else .refused (.jitterOutOfContract s.jitterIn)

/-- PLAN.BUILD, R136: rebuild and select the time-sync buffer when it is next, else select the identity buffer. -/
def execPlanBuild (s : State) : Host.Outcome State Fault Refusal :=
  whenEnabled (s.st == .planBuild) s fun s =>
    .next (if s.nxtSync then { s.tsBuild s.deadline s.eval with sel := .ts, st := .wait }
      else { s with sel := .id, st := .wait })

/-- WAIT, R137: guard `tick_cnt` = `deadline`, an equality test. -/
def execWait (s : State) : Host.Outcome State Fault Refusal :=
  whenEnabled (s.st == .wait && s.tickCnt == s.deadline) s fun s =>
    .next { s with st := .txBegin }

end Sys2Proof.Machine
end

