-- ==== Sys2Proof/Machine/Tick.lean ====
section
/-! DEFINITION. The tick source's step and the tick handler's operation (44_scheduler.md R138, R139). -/

namespace Sys2Proof.Machine

/-- TICK.ADV's guard: the counter cannot pass the deadline of a wait unseen (R138, 70_reset_and_hazards.md R189).
Entry 22. -/
def tickEnabled (s : State) : Bool := !(s.st == .wait && s.tickCnt == s.deadline)

/-- The counter's advance; the wrap raises the tick interrupt in the same step (R138). Entry 21. -/
def State.advanceTick (s : State) : State :=
  let t : State := { s with tickCnt := s.tickCnt + 1 }
  if tickWrapped t.tickCnt then t.raiseTickInterrupt else t

/-- TICK.ADV, R138 -/
def execTickAdv (s : State) : Host.Outcome State Fault Refusal :=
  whenEnabled (tickEnabled s) s fun s => .next s.advanceTick

/-- EPOCH.INC, R139 -/
def execEpochInc (s : State) : Host.Outcome State Fault Refusal := .next s.takeTickInterrupt

end Sys2Proof.Machine
end

