-- ==== Sys2Proof/Machine/Dispatch.lean ====
section
/-! DEFINITION. One arm per operation of 30_encoding.md R69. -/

namespace Sys2Proof.Machine

def exec (i : Instr) (s : State) : Host.Outcome State Fault Refusal :=
  match i with
  -- 40_checksum.md
  | .crc32Clr => Sys2Proof.Machine.execCrc32Clr s
  | .crc32Bit d => Sys2Proof.Machine.execCrc32Bit d s
  | .crc32Byte b => Sys2Proof.Machine.execCrc32Byte b s
  | .crc32Fin => Sys2Proof.Machine.execCrc32Fin s
  | .crc8Clr => Sys2Proof.Machine.execCrc8Clr s
  | .crc8Byte b => Sys2Proof.Machine.execCrc8Byte b s
  | .crc8Fin => Sys2Proof.Machine.execCrc8Fin s
  -- 41_fec_encoder.md
  | .encClr => Sys2Proof.Machine.execEncClr s
  | .encBit d => Sys2Proof.Machine.execEncBit d s
  | .encWord buf w => Sys2Proof.Machine.execEncWord buf w s
  -- 42_framer.md
  | .frmConst buf => Sys2Proof.Machine.execFrmConst buf s
  | .frmCode buf w => Sys2Proof.Machine.execFrmCode buf w s
  -- 43_builders.md
  | .cwMake p => Sys2Proof.Machine.execCwMake p s
  | .idBuild => Sys2Proof.Machine.execIdBuild s
  | .tsBuild d e => Sys2Proof.Machine.execTsBuild d e s
  -- 44_scheduler.md
  | .seqBoot => Sys2Proof.Machine.execSeqBoot s
  | .txBegin => Sys2Proof.Machine.execTxBegin s
  | .txUnit => Sys2Proof.Machine.execTxUnit s
  | .txEnd => Sys2Proof.Machine.execTxEnd s
  | .planSnap => Sys2Proof.Machine.execPlanSnap s
  | .planBuild => Sys2Proof.Machine.execPlanBuild s
  | .wait => Sys2Proof.Machine.execWait s
  | .tickAdv => Sys2Proof.Machine.execTickAdv s
  | .epochInc => Sys2Proof.Machine.execEpochInc s

end Sys2Proof.Machine
end

