-- ==== Sys2Proof/Machine/Fetch.lean ====
section
/-! DEFINITION. What the next step is: CORE has no instruction memory (20_memory.md R50), so the agent whose turn it is
and `st` select the operation (10_state.md R10, R27; 44_scheduler.md R130), or an operation is issued from outside. -/

namespace Sys2Proof.Machine

/-- The operation of SEQ that each value of `st` selects, by its code of 30_encoding.md R69 (44_scheduler.md R130). -/
def seqWord : SeqState → OpWord
  | .boot => ⟨0b10000, .none⟩
  | .txBegin => ⟨0b10001, .none⟩
  | .txUnit => ⟨0b10010, .none⟩
  | .txEnd => ⟨0b10011, .none⟩
  | .planSnap => ⟨0b10100, .none⟩
  | .planBuild => ⟨0b10101, .none⟩
  | .wait => ⟨0b10110, .none⟩

/-- TICK's one operation, TICK.ADV. -/
def tickWord : OpWord := ⟨0b11000, .none⟩

/-- What the next step does. -/
inductive Fetched where
  /-- an operation runs -/
  | op (w : OpWord)
  /-- PHY or ENV moves, or drives `rst` -/
  | outside (t : Turn)
  /-- an agent's turn while `rst` is asserted: it does not step (70_reset_and_hazards.md R180) -/
  | held
  deriving DecidableEq, Repr

/-- The move of a turn while `rst` is released. -/
def fetchTurn (st : SeqState) : Turn → Fetched
  | .seq => .op (seqWord st)
  | .tick => .op tickWord
  | .phy r b => .outside (.phy r b)
  | .jitter v => .outside (.jitter v)
  | .rst l => .outside (.rst l)

/-- The move of a turn while `rst` is asserted. Entry 11. -/
def heldTurn : Turn → Fetched
  | .seq => .held
  | .tick => .held
  | .phy r b => .outside (.phy r b)
  | .jitter v => .outside (.jitter v)
  | .rst l => .outside (.rst l)

/-- What the next step of the machine is. An issued operation goes before the turn list (entry 4). -/
def State.fetch (s : State) : Fetched :=
  if s.rst then heldTurn s.turn
  else
    match s.issue with
    | some w => .op w
    | none => fetchTurn s.st s.turn

/-- The state in which what was fetched runs: the issued operation or the turn is used up, the strobe of the last
PhySend is over. Entry 12. -/
def State.afterFetch (s : State) : State :=
  if s.rst then { s.dropTurn with phySend := false }
  else
    match s.issue with
    | some _ => { s with issue := none, phySend := false }
    | none => { s.dropTurn with phySend := false }

/-- A move of PHY or ENV: it drives its inputs of CORE (10_state.md R10, R12). SEQ's and TICK's turns drive none. -/
def State.drive (s : State) : Turn → State
  | .phy r b => { s with phyReady := r, phyBusy := b }
  | .jitter v => { s with jitterIn := v }
  | .rst l => s.driveRst l
  | .seq => s
  | .tick => s

end Sys2Proof.Machine
end

