-- ==== Sys2Proof/Machine/Step.lean ====
section
/-! DEFINITION. One step of the machine: one atomic move of one agent (10_state.md R10). -/

namespace Sys2Proof.Machine

/-- One step. -/
def step (s : State) : Host.Outcome State Fault Refusal :=
  match s.fetch with
  | .op w =>
    match decode w with
    | .ok i => exec i s.afterFetch
    | .error why => .refused (.undecodable why)
  | .outside t => .next (s.afterFetch.drive t)
  | .held => .next s.afterFetch

/-- SEQ's next turn is now, and it finds `st` at a value. -/
def State.seqTurn (s : State) (st : SeqState) : State :=
  { s with rst := false, issue := none, turns := .seq :: s.turns, st := st }

/-- `s` made ready so that the very next step runs the table word `w`, operands zero: a step of SEQ is selected by
`st` and its guard's inputs hold, TICK.ADV is TICK's turn, any other word is issued. Entry 1. -/
def State.withFetchWord (s : State) (nbits w : Nat) : State :=
  match decodeTableWord nbits w with
  | some .seqBoot => s.seqTurn .boot
  | some .txBegin => s.seqTurn .txBegin
  | some .txUnit => { s.seqTurn .txUnit with phyReady := true }
  | some .txEnd => { s.seqTurn .txEnd with phyBusy := false }
  | some .planSnap => { s.seqTurn .planSnap with jitterIn := 0 }
  | some .planBuild => s.seqTurn .planBuild
  | some .wait => { s.seqTurn .wait with tickCnt := s.deadline }
  | some .tickAdv => { s with rst := false, issue := none, turns := .tick :: s.turns }
  | some _ => { s with rst := false, issue := some (tableOpWord w) }
  | none => { s with rst := false, issue := some (tableOpWord w) }

end Sys2Proof.Machine
end

