-- ==== Sys2Proof/Safety.lean ====
section
/-! DEFINITION. What the claims are stated in: reference forms of the data formats, written from the prose of the spec
and not from the meanings; the invariants of 10_state.md R35, 42_framer.md R112 and 44_scheduler.md R142; premises;
runs. -/

namespace Sys2Proof.Machine

/-- The next state, where there is one. -/
def nextState? : Host.Outcome State Fault Refusal → Option State
  | .next s => some s
  | .fault _ => none
  | .refused _ => none

/-- The outcome with the next state, where there is one, changed by f. -/
def mapNext (f : State → State) : Host.Outcome State Fault Refusal → Host.Outcome State Fault Refusal
  | .next s => .next (f s)
  | .fault r => .fault r
  | .refused r => .refused r

/-- Operations one after another, stopping at the first fault or refusal (30_encoding.md R71: expansions). -/
def execs : List Instr → State → Host.Outcome State Fault Refusal
  | [], s => .next s
  | i :: is, s =>
    match exec i s with
    | .next t => execs is t
    | .fault f => .fault f
    | .refused r => .refused r

/-! ### Reference forms -/

/-- One shift of the equivalent form of 40_checksum.md R82. -/
def refCrc32Shift (x : BitVec 32) : BitVec 32 := if x.getLsbD 0 then (x >>> 1) ^^^ 0xEDB88320 else x >>> 1

/-- A byte's CRC-32 in that form: exclusive-or the whole byte, then eight shifts. -/
def refCrc32Byte (acc : BitVec 32) (b : Byte) : BitVec 32 := Nat.repeat refCrc32Shift 8 (acc ^^^ b.setWidth 32)

/-- `crc32(bytes)` in catalogue terms (R84). -/
def refCrc32 (bytes : List Byte) : BitVec 32 := ~~~(bytes.foldl refCrc32Byte 0xFFFFFFFF)

/-- One shift of CRC-8 (R86). -/
def refCrc8Shift (x : BitVec 8) : BitVec 8 := if x.getLsbD 0 then (x >>> 1) ^^^ 0xE0 else x >>> 1

/-- A byte's CRC-8 (R86). -/
def refCrc8Byte (acc : BitVec 8) (b : Byte) : BitVec 8 := Nat.repeat refCrc8Shift 8 (acc ^^^ b)

/-- `crc8(bytes)` in catalogue terms (R88). -/
def refCrc8 (bytes : List Byte) : BitVec 8 := ~~~(bytes.foldl refCrc8Byte 0xFF)

/-- The identity of an identifier: `crc32` over the 12 bytes, reduced modulo ten million (43_builders.md R121). -/
def refIdentity (uid : Vector Byte 12) : Nat := (refCrc32 uid.toList).toNat % 10000000

/-- The codeword of a payload: 24 payload bits, then the 8-bit checksum of its bytes, most significant first
(30_encoding.md R63). -/
def refCodeword (p : Payload) : Codeword :=
  p ++ refCrc8 [p.extractLsb' 16 8, p.extractLsb' 8 8, p.extractLsb' 0 8]

/-- The time-sync payload: tag 0xA, low epoch nibble, deadline, from the top (R65). -/
def refTsPayload (deadline epoch : Half) : Payload := (0xA#4 ++ epoch.extractLsb' 0 4) ++ deadline

/-- The bit inserted at encoder step k: `w[31]` first, eight zeros after `w[0]` (R67). -/
def insertedBit (w : Codeword) (k : Nat) : Bool := if k < 32 then w.getLsbD (31 - k) else false

/-- The exclusive or of the bits inserted the given numbers of steps before step k; before step 0 the register held
zeros (41_fec_encoder.md R100, R105). -/
def tapParity (w : Codeword) (taps : List Nat) (k : Nat) : Bool :=
  taps.foldl (fun p t => p ^^ (decide (t ≤ k) && insertedBit w (k - t))) false

/-- POLYA's taps: 0, 1, 2, 3, 5, 7 and 8 steps ago (R105). -/
def tapsA : List Nat := [0, 1, 2, 3, 5, 7, 8]

/-- POLYB's taps: 0, 2, 3, 4 and 8 steps ago (R105). -/
def tapsB : List Nat := [0, 2, 3, 4, 8]

/-- The symbol byte of a bit value (30_encoding.md R60). -/
def bitByte (p : Bool) : Byte := if p then 0x55 else 0xAA

/-- Symbol j of the 80 of a codeword: the POLYA symbol of step j/2, then its POLYB symbol (R67). -/
def codeSymbol (w : Codeword) (j : Nat) : Byte :=
  bitByte (tapParity w (if j % 2 = 0 then tapsA else tapsB) (j / 2))

/-- Buffer b's codeword region holds the symbols of w (R61, R67). -/
def Coded (m : Memory) (b : BufSel) (w : Codeword) : Prop :=
  ∀ j, j < 80 → m.byte? b (20 + j) = some (codeSymbol w j)

/-- Buffer b's constant regions hold training, preamble and trailer (R61, 42_framer.md R112). -/
def ConstFramed (m : Memory) (pre : Vector Symbol 16) (b : BufSel) : Prop :=
  (∀ i, i < 4 → m.byte? b i = some 0xAA) ∧
  (∀ k : Fin 16, m.byte? b (4 + k.val) = some (bitByte (pre[k] == .pos))) ∧
  (∀ i, 100 ≤ i → i < 104 → m.byte? b i = some 0xAA)

/-- The 104 units of a frame: training, preamble, the 80 symbols of a codeword, trailer (R61, R68). -/
def frameOf (pre : Vector Symbol 16) (w : Codeword) : List Byte :=
  List.replicate 4 0xAA ++ pre.toList.map (fun x => bitByte (x == .pos)) ++ (List.range 80).map (codeSymbol w) ++
    List.replicate 4 0xAA

/-- A whole identity frame of the device with this identifier, or a whole time-sync frame (43_builders.md R121,
R122). -/
def IsBeacon (pre : Vector Symbol 16) (uid : Vector Byte 12) (f : List Byte) : Prop :=
  f = frameOf pre (refCodeword (BitVec.ofNat 24 (refIdentity uid))) ∨
    ∃ d e, f = frameOf pre (refCodeword (refTsPayload d e))

/-- Buffer b holds the byte it held, at every offset. -/
def SameBuffer (m m' : Memory) (b : BufSel) : Prop := ∀ i, m'.byte? b i = m.byte? b i

/-! ### Invariants -/

/-- 10_state.md R35, and the canonical form of memory. `window` says of every state after the first PLAN.SNAP, which
is where `led` or `nxt_sync` is 1 (44_scheduler.md R143), what R141 says; before it the two registers have no value in
the spec (R34), and `differ` there rests on the reset value of entry 7. -/
structure CoreInv (s : State) : Prop where
  noIssue : s.issue = none
  cyc : s.cyc.toNat ≤ 666
  idx : s.idx.toNat ≤ 104
  idxUnit : s.st = .txUnit → s.idx.toNat ≤ 103
  ident : s.ident.toNat ≤ 9999999
  mask : s.irqMask = true ↔ s.st = .txUnit ∨ s.st = .txEnd
  pending : s.irqMask = false → s.ovfPending = false
  srLow : ∀ j, j < 8 → s.sr.getLsbD j = false
  memWf : s.mem.wf = true
  symbols : ∀ b i v, s.mem.byte? b i = some v → v = 0xAA ∨ v = 0x55
  differ : s.deadline ≠ s.now
  window : s.led = true ∨ s.nxtSync = true →
    10 ≤ (s.deadline - s.now).toNat ∧ (s.deadline - s.now).toNat ≤ 19
  planned : s.st = .planBuild ∨ s.st = .wait → s.led = !s.nxtSync

/-- What the buffers hold after BOOT (42_framer.md R112, 43_builders.md R123, 70_reset_and_hazards.md R182): the
identity beacon of this device, the constant regions of the time-sync buffer, and a time-sync codeword whenever that
buffer is selected. -/
structure FrameInv (s : State) : Prop where
  noIssue : s.issue = none
  bootSel : s.st = .boot → s.sel = .id
  ident : s.st ≠ .boot → s.ident.toNat = refIdentity s.uid
  idConst : s.st ≠ .boot → ConstFramed s.mem s.pre .id
  idCoded : s.st ≠ .boot → Coded s.mem .id (refCodeword s.ident)
  tsConst : s.st ≠ .boot → ConstFramed s.mem s.pre .ts
  tsCoded : s.sel = .ts → ∃ d e, Coded s.mem .ts (refCodeword (refTsPayload d e))

/-- R142 between PLAN.SNAP and the start of a time-sync frame: the counter has not passed the deadline, the wraps seen
since the snapshot are exactly those `epoch` has counted, and once built the buffer carries `deadline` and `eval`. -/
structure Announced (s : State) : Prop where
  notPassed : s.nxtSync = true → s.st = .planBuild ∨ s.st = .wait →
    (s.tickCnt - s.now).toNat ≤ (s.deadline - s.now).toNat
  wraps : s.nxtSync = true → s.st = .planBuild ∨ s.st = .wait →
    s.eval - (if s.deadline ≤ s.now then 1 else 0) = s.epoch - (if s.tickCnt < s.now then 1 else 0)
  carried : s.nxtSync = true → s.st = .wait →
    s.sel = .ts ∧ Coded s.mem .ts (refCodeword (refTsPayload s.deadline s.eval))

/-- The line trace is whole beacons of this device, one after another, and in a drain after them the units of the
selected buffer sent so far; every unit is a symbol (10_state.md R11, 30_encoding.md R68, R72 a). -/
structure LineInv (s : State) : Prop where
  beacons : ∃ frames : List (List Byte), (∀ f ∈ frames, IsBeacon s.pre s.uid f) ∧
    s.line = frames.flatten ++
      (if s.st = .txUnit then (List.range s.idx.toNat).map fun i => (s.mem.byte? s.sel i).getD 0 else [])
  symbols : ∀ v ∈ s.line, v = 0xAA ∨ v = 0x55

/-- Outside PLAN_BUILD the selected buffer is the time-sync buffer exactly when `nxt_sync` is 1 (44_scheduler.md
R140). -/
structure Selected (s : State) : Prop where
  noIssue : s.issue = none
  sel : s.st ≠ .planBuild → (s.sel = .ts ↔ s.nxtSync = true)

/-! ### Premises and kinds of step -/

/-- P_PLAN (70_reset_and_hazards.md R188) at one state: fewer than 10 ticks from PLAN.SNAP to here. -/
def PlanInTime (s : State) : Prop := s.st = .planBuild → (s.tickCnt - s.now).toNat < 10

/-- The next step asserts `rst`. -/
def State.resets (s : State) : Bool := s.fetch == .outside (.rst true)

/-- The next step is a PLAN.SNAP that is enabled. -/
def State.snaps (s : State) : Bool := s.fetch == .op ⟨0b10100, .none⟩ && s.st == .planSnap

/-- The ticks told so far, modulo 2^32: `epoch ‖ tick_cnt` (60_exceptions.md R167), a latched wrap counted (the latch is
D18, entry 21). -/
def State.toldTime (s : State) : BitVec 32 :=
  (s.epoch + (if s.ovfPending then 1 else 0)) ++ s.tickCnt

/-- The next step is a TICK.ADV that is enabled. -/
def State.ticks (s : State) : Bool := s.fetch == .op ⟨0b11000, .none⟩ && tickEnabled s

/-- P_DRAIN (70_reset_and_hazards.md R187) at one step: it is not the TICK.ADV of a second wrap, one being latched
(D18, D20, entry 21). -/
def DrainInTime (s : State) : Prop := ¬ (s.ticks = true ∧ s.ovfPending = true ∧ s.tickCnt = 0xFFFF)

/-- A stretch of steps, none of which asserts `rst`, in which PLAN.SNAP ran n times. -/
inductive Run : Nat → State → State → Prop where
  | start (s : State) : Run 0 s s
  | plan {n : Nat} {s t u : State} (r : Run n s t) (h : t.snaps = true) (hs : step t = .next u) : Run (n + 1) s u
  | other {n : Nat} {s t u : State} (r : Run n s t) (h : t.snaps = false) (hr : t.resets = false)
      (hs : step t = .next u) : Run n s u

/-! ### Fairness: the premises of claims that something eventually happens (70_reset_and_hazards.md R190) -/

/-- A run for ever in which `σ n` has turn n, any interleaving (10_state.md R10): no `rst`, nothing issued. Entry 2. -/
structure Behaviour (σ : Nat → Turn) (r : Nat → State) : Prop where
  next : ∀ n, step { r n with turns := [σ n] } = .next (r (n + 1))
  noIssue : ∀ n, (r n).issue = none
  released : ∀ n, (r n).rst = false

/-- The guard of SEQ's step at the current `st` (44_scheduler.md R130). -/
def State.seqEnabled (s : State) : Bool :=
  match s.st with
  | .boot => true
  | .txBegin => true
  | .txUnit => s.phyReady
  | .txEnd => !s.phyBusy
  | .planSnap => true
  | .planBuild => true
  | .wait => s.tickCnt == s.deadline

/-- Turn n is an enabled step of SEQ. -/
def SeqSteps (σ : Nat → Turn) (r : Nat → State) (n : Nat) : Prop := σ n = .seq ∧ (r n).seqEnabled = true

/-- From n on, p comes to hold and stays so until SEQ steps. -/
def UntilSeq (σ : Nat → Turn) (r : Nat → State) (n : Nat) (p : State → Prop) : Prop :=
  ∃ m, n ≤ m ∧ ∀ k, m ≤ k → (∀ j, n ≤ j → j < k → ¬ SeqSteps σ r j) → p (r k)

/-- F1: a step of SEQ that stays enabled is eventually taken. -/
def SeqFair (σ : Nat → Turn) (r : Nat → State) : Prop :=
  ∀ n, ∃ m, n ≤ m ∧ ((r m).seqEnabled = true → σ m = .seq)

/-- F2: TICK.ADV is taken infinitely often. -/
def TickForever (σ : Nat → Turn) (r : Nat → State) : Prop :=
  ∀ n, ∃ m, n ≤ m ∧ σ m = .tick ∧ tickEnabled (r m) = true

/-- F3, the liveness of PHY (60_exceptions.md R172 c): in TX_UNIT it becomes ready, in TX_END it ceases to be busy, and
it stays so until SEQ steps. -/
structure PhyLive (σ : Nat → Turn) (r : Nat → State) : Prop where
  ready : ∀ n, (r n).st = .txUnit → UntilSeq σ r n fun s => s.phyReady = true
  idle : ∀ n, (r n).st = .txEnd → UntilSeq σ r n fun s => s.phyBusy = false

end Sys2Proof.Machine
end

