-- ==== Sys2Proof/Certificates/Slice0/Obligations.lean ====
section
/-! DEFINITION. The statements for the provers. Where one rests on a choice of the model or a decision of the spec, its
docstring names it. A record equality `t = s with some fields changed` is also the frame: every field not named, memory
included, is as before. -/

open Sys2Proof Sys2Proof.Machine

/-! ### Reset, encoding, one step -/

/-- 10_state.md R34's table, by decision D22 of the spec; no byte of BUF has a value. -/
def Obligations.ResetLeavesBootState : Prop :=
  State.reset.st = .boot ∧ State.reset.idx = 0 ∧ State.reset.cyc = 0 ∧ State.reset.sel = .id ∧
  State.reset.nxtSync = false ∧ State.reset.led = false ∧ State.reset.epoch = 0 ∧ State.reset.irqMask = false ∧
  State.reset.ovfPending = false ∧ State.reset.sr = 0 ∧ State.reset.rst = false ∧
  ∀ b i, State.reset.mem.byte? b i = none

/-- Words written out from 30_encoding.md R69's table, one of each family. -/
def Obligations.TableWordsDecode : Prop :=
  decode ⟨0b00001, .bit 1⟩ = .ok (.crc32Bit 1) ∧ decode ⟨0b00101, .byte 0x57⟩ = .ok (.crc8Byte 0x57) ∧
  decode ⟨0b01001, .bufWord .ts 0x12345678⟩ = .ok (.encWord .ts 0x12345678) ∧
  decode ⟨0b01010, .buf .ts⟩ = .ok (.frmConst .ts) ∧ decode ⟨0b01110, .times 0xB 4⟩ = .ok (.tsBuild 0xB 4) ∧
  decodeTableWord 8 0b10100 = some .planSnap ∧ decodeTableWord 8 0b11000 = some .tickAdv ∧
  decodeTableWord 8 0b01111 = none

/-- Each operation with each value of its operands has one word (30_encoding.md R69, R70), and the decoder reads
exactly those words. That it refuses an operand of another kind, and a number from 32 up, is the model's (entry 5). -/
def Obligations.DecodeInvertsEncode : Prop :=
  (∀ x i, decode x = .ok i ↔ x = encode i) ∧ ∀ x, x.wellFormed = true ↔ ∃ i, decode x = .ok i

/-- 30_encoding.md R72 (e): the codes that name nothing are refused by name. So is, by the model's choice (entry 5), a
number of more than the five bits R70 gives a word. -/
def Obligations.UnassignedCodesRefused : Prop :=
  ∀ code arg,
    (code = 0b01111 ∨ code = 0b10111 ∨ 0b11010 ≤ code ∧ code < 32 →
      decode ⟨code, arg⟩ = .error (.reservedCode code)) ∧
    (32 ≤ code → decode ⟨code, arg⟩ = .error (.notFiveBits code))

/-- What is fetched and decodes is what runs, in the state in which it was fetched less the turn or issued word used
up and the strobe (entries 2, 4 and 12). -/
def Obligations.StepRunsDecoded : Prop :=
  (∀ s w i, s.fetch = .op w → decode w = .ok i → step s = exec i s.afterFetch) ∧
  ∀ s w i, s.rst = false → s.issue = some w → decode w = .ok i →
    step s = exec i { s with issue := none, phySend := false }

/-- 44_scheduler.md R130, first two columns: on SEQ's turn `st` selects the step; TICK's turn is TICK.ADV. Whose turn
it is, is State's turn list (entry 2). -/
def Obligations.StateSelectsStep : Prop :=
  ∀ s, s.rst = false → s.issue = none →
    (s.turn = .tick → step s = exec .tickAdv { s.dropTurn with phySend := false }) ∧
    ∀ p ∈ [(SeqState.boot, Instr.seqBoot), (.txBegin, .txBegin), (.txUnit, .txUnit), (.txEnd, .txEnd),
        (.planSnap, .planSnap), (.planBuild, .planBuild), (.wait, .wait)],
      s.turn = .seq → s.st = p.1 → step s = exec p.2 { s.dropTurn with phySend := false }

/-- 60_exceptions.md R172 (b), 10_state.md R12: PHY and ENV drive their inputs and nothing else (entries 2 and 12). -/
def Obligations.OutsideMovesDriveInputsOnly : Prop :=
  ∀ s, s.issue = none →
    (∀ r b, s.turn = .phy r b → step s = .next { s.dropTurn with phySend := false, phyReady := r, phyBusy := b }) ∧
    ∀ v, s.turn = .jitter v → step s = .next { s.dropTurn with phySend := false, jitterIn := v }

/-- 70_reset_and_hazards.md R180: while `rst` is asserted neither SEQ nor TICK steps; asserting it puts CORE at the
reset values of R34, and releasing it leaves the rest. How `rst` is driven, and that the counter gets a free value, is
the model's (entry 11). -/
def Obligations.ResetHoldsAgents : Prop :=
  (∀ s, s.rst = true → s.turn = .seq ∨ s.turn = .tick → step s = .next { s.dropTurn with phySend := false }) ∧
  (∀ s, s.rst = true → s.turn = .rst false →
    step s = .next { s.dropTurn with phySend := false, rst := false }) ∧
  ∀ s, s.issue = none → s.turn = .rst true → ∃ t, step s = .next t ∧ t.rst = true ∧ t.st = .boot ∧ t.idx = 0 ∧
    t.cyc = 0 ∧ t.sel = .id ∧ t.nxtSync = false ∧ t.led = false ∧ t.epoch = 0 ∧ t.irqMask = false ∧
    t.ovfPending = false ∧ t.sr = 0 ∧ t.uid = s.uid ∧ t.pre = s.pre ∧ t.line = s.line ∧
    ∀ b i, t.mem.byte? b i = none

/-! ### Checksums -/

/-- 40_checksum.md R80, R85. -/
def Obligations.ClearsSetAllOnes : Prop :=
  ∀ s, exec .crc32Clr s = .next { s with acc32 := 0xFFFFFFFF } ∧ exec .crc8Clr s = .next { s with acc8 := 0xFF }

/-- 40_checksum.md R81 bit by bit: with lo the low bit after the input bit went in, bit j of the new accumulator is bit
j+1 of the old one, exclusive-or bit j of the polynomial when lo is 1. The order is the spec's decision D3. -/
def Obligations.Crc32BitShiftsThenFolds : Prop :=
  ∀ d s, ∃ t, exec (.crc32Bit d) s = .next t ∧ t = { s with acc32 := t.acc32 } ∧
    ∀ j, j < 32 → t.acc32.getLsbD j =
      (s.acc32.getLsbD (j + 1) ^^ ((s.acc32.getLsbD 0 ^^ d.getLsbD 0) && (0xEDB88320#32).getLsbD j))

/-- 40_checksum.md R82's equivalent form: the whole byte in at once, then eight shifts. Bit order D4. -/
def Obligations.Crc32ByteIsXorThenEightShifts : Prop :=
  ∀ b s, exec (.crc32Byte b) s = .next { s with acc32 := refCrc32Byte s.acc32 b }

/-- 40_checksum.md R86 with its corner case. -/
def Obligations.Crc8ByteShiftsEightTimes : Prop :=
  ∀ b s, exec (.crc8Byte b) s = .next { s with acc8 := refCrc8Byte s.acc8 b } ∧
    (s.acc8 ^^^ b = 0 → exec (.crc8Byte b) s = .next { s with acc8 := 0 })

/-- 40_checksum.md R83, R87. The result lines are the model's (entry 6). -/
def Obligations.FinalsHandBackComplement : Prop :=
  ∀ s, exec .crc32Fin s = .next { s with ret := .word (0xFFFFFFFF - s.acc32) } ∧
    exec .crc8Fin s = .next { s with ret := .byte (0xFF - s.acc8) }

/-- 40_checksum.md R84: `crc32` of any byte sequence, whatever the accumulator held before. Entry 6; D3, D4. -/
def Obligations.Crc32OfByteSequence : Prop :=
  ∀ bytes s, execs (.crc32Clr :: (bytes.map .crc32Byte ++ [.crc32Fin])) s =
    .next { s with acc32 := 0xFFFFFFFF - refCrc32 bytes, ret := .word (refCrc32 bytes) }

/-- 40_checksum.md R88: `crc8` of any byte sequence. Entry 6; D5. -/
def Obligations.Crc8OfByteSequence : Prop :=
  ∀ bytes s, execs (.crc8Clr :: (bytes.map .crc8Byte ++ [.crc8Fin])) s =
    .next { s with acc8 := 0xFF - refCrc8 bytes, ret := .byte (refCrc8 bytes) }

/-! ### Encoder and framer -/

/-- 41_fec_encoder.md R100, R101, R105: the register after the shift, and its two symbols as exclusive ors over the
taps. Nine bits and the clear are the spec's decision D8; the result lines are the model's (entry 6). -/
def Obligations.EncBitEmitsTapParities : Prop :=
  ∀ d s, exec .encClr s = .next { s with sr := 0 } ∧
    ∃ t, exec (.encBit d) s = .next t ∧ t = { s with sr := t.sr, ret := t.ret } ∧
      t.sr.toNat = (2 * s.sr.toNat + d.toNat) % 512 ∧
      t.ret = .symbols (bitByte (tapsA.foldl (fun p k => p ^^ t.sr.getLsbD k) false))
        (bitByte (tapsB.foldl (fun p k => p ^^ t.sr.getLsbD k) false))

/-- 41_fec_encoder.md R102: offsets 20 to 99 of the target buffer hold the 80 symbols of w, every other byte of BUF
reads as before, and nothing else but `sr` changes. That `sr` ends with w's last bit in bit 8 over zeros is R103,
derived there; the clear before the first bit is the spec's decision D8 (entry 18). -/
def Obligations.EncWordWritesCodeSymbols : Prop :=
  ∀ b w s, ∃ t, exec (.encWord b w) s = .next t ∧
    t = { s with sr := if w.toNat % 2 = 0 then 0x000 else 0x100, mem := t.mem } ∧ Coded t.mem b w ∧
    ∀ c i, c ≠ b ∨ i < 20 ∨ 100 ≤ i → t.mem.byte? c i = s.mem.byte? c i

/-- 41_fec_encoder.md R102, corner case marked derived there: the encoder is linear over exclusive or. -/
def Obligations.EncoderIsLinear : Prop :=
  ∀ b v w s, ∃ t₁ t₂ t₃, exec (.encWord b v) s = .next t₁ ∧ exec (.encWord b w) s = .next t₂ ∧
    exec (.encWord b (v ^^^ w)) s = .next t₃ ∧
    ∀ j, j < 80 → ∃ p q, t₁.mem.byte? b (20 + j) = some (bitByte p) ∧ t₂.mem.byte? b (20 + j) = some (bitByte q) ∧
      t₃.mem.byte? b (20 + j) = some (bitByte (p ^^ q))

/-- 42_framer.md R110, its corner case included: executing it again changes nothing. The premise of that clause is
the canonical form, which every state of a run has (entry 8). -/
def Obligations.FrmConstWritesConstantRegions : Prop :=
  ∀ b s, ∃ t, exec (.frmConst b) s = .next t ∧ t = { s with mem := t.mem } ∧ ConstFramed t.mem s.pre b ∧
    (∀ c i, c ≠ b ∨ 20 ≤ i ∧ i < 100 ∨ 104 ≤ i → t.mem.byte? c i = s.mem.byte? c i) ∧
    (s.mem.wf = true → exec (.frmConst b) t = .next t)

/-- 42_framer.md R111: offsets 20 to 99 hold the new codeword's symbols, whatever they held; the constant regions and
the other buffer hold what they held. It is ENC.WORD, so `sr` ends as R103 derives under D8 (entry 18). -/
def Obligations.FrmCodeReplacesCodeRegion : Prop :=
  ∀ b w s, ∃ t, exec (.frmCode b w) s = .next t ∧ exec (.encWord b w) s = .next t ∧
    t = { s with sr := if w.toNat % 2 = 0 then 0x000 else 0x100, mem := t.mem } ∧ Coded t.mem b w ∧
    ∀ c i, c ≠ b ∨ i < 20 ∨ 100 ≤ i → t.mem.byte? c i = s.mem.byte? c i

/-! ### Builders -/

/-- 43_builders.md R120, 30_encoding.md R63. Byte order and positions are the spec's decisions D5, D6, D7. -/
def Obligations.CwMakeAppendsChecksum : Prop :=
  ∀ p s, exec (.cwMake p) s = .next { s with
    acc8 := 0xFF - refCrc8 [p.extractLsb' 16 8, p.extractLsb' 8 8, p.extractLsb' 0 8], cw := refCodeword p }

/-- 43_builders.md R121. The byte order and the unsigned remainder are the spec's decisions D10, D11. -/
def Obligations.IdBuildFramesIdentity : Prop :=
  ∀ s, ∃ t, exec .idBuild s = .next t ∧
    t = { s with acc32 := t.acc32, acc8 := t.acc8, sr := t.sr, cw := t.cw, ident := t.ident, mem := t.mem } ∧
    0xFFFFFFFF - t.acc32 = refCrc32 s.uid.toList ∧ t.ident.toNat = refIdentity s.uid ∧ t.cw = refCodeword t.ident ∧
    (0xFF - t.acc8) = t.cw.extractLsb' 0 8 ∧ ConstFramed t.mem s.pre .id ∧ Coded t.mem .id t.cw ∧
    (∀ i, 104 ≤ i → t.mem.byte? .id i = s.mem.byte? .id i) ∧ SameBuffer s.mem t.mem .ts

/-- 43_builders.md R121: the identity is in [0, 9,999,999], and identity and codeword depend on the identifier alone. -/
def Obligations.IdentityDependsOnIdentifierAlone : Prop :=
  ∀ s s', s.uid = s'.uid → ∃ t t', exec .idBuild s = .next t ∧ exec .idBuild s' = .next t' ∧
    t.ident = t'.ident ∧ t.cw = t'.cw ∧ t.ident.toNat ≤ 9999999

/-- 43_builders.md R122. D5 to D7. -/
def Obligations.TsBuildFramesAnnouncement : Prop :=
  ∀ d e s, ∃ t, exec (.tsBuild d e) s = .next t ∧
    t = { s with acc8 := t.acc8, sr := t.sr, cw := t.cw, mem := t.mem } ∧ t.cw = refCodeword (refTsPayload d e) ∧
    (0xFF - t.acc8) = t.cw.extractLsb' 0 8 ∧ Coded t.mem .ts t.cw ∧
    ∀ c i, c ≠ .ts ∨ i < 20 ∨ 100 ≤ i → t.mem.byte? c i = s.mem.byte? c i

/-- 43_builders.md R122: only `e[3:0]` is used. -/
def Obligations.TsBuildUsesLowEpochNibble : Prop :=
  ∀ d e e' s, e.toNat % 16 = e'.toNat % 16 → exec (.tsBuild d e) s = exec (.tsBuild d e') s

/-- 30_encoding.md R65, R66 (derived there): payload bits 23:20, the codeword's bits 31:28, are 0xA in every time-sync
codeword and at most 9 in every identity codeword. -/
def Obligations.PayloadTagsTellBeaconsApart : Prop :=
  (∀ d e s, ∃ t, exec (.tsBuild d e) s = .next t ∧ t.cw.extractLsb' 28 4 = 0xA) ∧
  ∀ s, ∃ t, exec .idBuild s = .next t ∧ (t.cw.extractLsb' 28 4).toNat ≤ 9

/-! ### The sequencer's steps, enabled -/

/-- 44_scheduler.md R131. The order of the two framings is the spec's decision D27. -/
def Obligations.SeqBootFramesBothBuffers : Prop :=
  ∀ s, s.st = .boot → ∃ t, exec .seqBoot s = .next t ∧
    t = { s with acc32 := t.acc32, acc8 := t.acc8, sr := t.sr, cw := t.cw, ident := t.ident, mem := t.mem, st := .txBegin } ∧
    t.ident.toNat = refIdentity s.uid ∧ t.cw = refCodeword t.ident ∧ ConstFramed t.mem s.pre .id ∧
    Coded t.mem .id t.cw ∧ ConstFramed t.mem s.pre .ts ∧
    (∀ i, 20 ≤ i ∧ i < 100 ∨ 104 ≤ i → t.mem.byte? .ts i = s.mem.byte? .ts i) ∧
    ∀ i, 104 ≤ i → t.mem.byte? .id i = s.mem.byte? .id i

/-- 44_scheduler.md R132: the tick interrupt is suppressed from here, the drain starts at offset 0, nothing else
changes. -/
def Obligations.TxBeginMasksInterrupt : Prop :=
  ∀ s, s.st = .txBegin → exec .txBegin s = .next { s with irqMask := true, idx := 0, st := .txUnit }

/-- 44_scheduler.md R133, the enabled step. The trace `line` and the latched `phy_data` are the model's form of
PhySend (entry 12). -/
def Obligations.TxUnitSendsNextUnit : Prop :=
  ∀ s v, s.st = .txUnit → s.phyReady = true → s.idx.toNat < 104 → s.mem.byte? s.sel s.idx.toNat = some v →
    exec .txUnit s = .next { s with
      phyData := v, phySend := true, line := s.line ++ [v], idx := BitVec.ofNat 7 (s.idx.toNat + 1),
      st := if s.idx.toNat = 103 then .txEnd else .txUnit }

/-- Where a step stops, by name: the read of a byte nothing has written (93_implementation_defined.md U11), of an
offset that does not exist (20_memory.md R40), a sampled draw outside 0..9 (30_encoding.md R72 d). Entries 8 and 13. -/
def Obligations.StopsAreNamed : Prop :=
  ∀ s, (s.st = .txUnit → s.phyReady = true → s.idx.toNat < 104 → s.mem.byte? s.sel s.idx.toNat = none →
      exec .txUnit s = .fault (.unwrittenByte s.sel s.idx.toNat)) ∧
    (s.st = .txUnit → s.phyReady = true → 104 ≤ s.idx.toNat →
      exec .txUnit s = .fault (.noSuchOffset s.sel s.idx.toNat)) ∧
    (s.st = .planSnap → 10 ≤ s.jitterIn.toNat → exec .planSnap s = .refused (.jitterOutOfContract s.jitterIn))

/-- 44_scheduler.md R134: the mask is lifted and a latched wrap counted in the same step. The latch is the spec's
decision D18. -/
def Obligations.TxEndLiftsMaskAndCounts : Prop :=
  ∀ s, s.st = .txEnd → s.phyBusy = false →
    exec .txEnd s = .next { s with
      irqMask := false, epoch := if s.ovfPending then s.epoch + 1 else s.epoch, ovfPending := false, st := .planSnap }

/-- 44_scheduler.md R135 with corner case (c): the deadline wraps exactly when `now` >= 65526 - `jit`. The placements
are the spec's decisions D12, D14, D16, D17; `cyc` above 666 is entry 14. -/
def Obligations.PlanSnapSetsDeadlineAndEpoch : Prop :=
  ∀ s, s.st = .planSnap → s.jitterIn.toNat ≤ 9 →
    exec .planSnap s = .next { s with
      nxtSync := decide (s.cyc.toNat = 666), cyc := BitVec.ofNat 10 ((s.cyc.toNat + 1) % 667),
      led := !decide (s.cyc.toNat = 666), now := s.tickCnt, jit := s.jitterIn,
      deadline := BitVec.ofNat 16 ((s.tickCnt.toNat + 10 + s.jitterIn.toNat) % 65536),
      eval := if s.cyc.toNat = 666 then
          (if 65526 ≤ s.tickCnt.toNat + s.jitterIn.toNat then s.epoch + 1 else s.epoch)
        else s.eval,
      st := .planBuild }

/-- 44_scheduler.md R141, derived there: every computed deadline lies 10 to 19 ticks after the snapshot, modulo 65536,
and never equals it (R135, corner case b). -/
def Obligations.DeadlineLiesInWindow : Prop :=
  ∀ s, s.st = .planSnap → s.jitterIn.toNat ≤ 9 → ∃ t, exec .planSnap s = .next t ∧ t.now = s.tickCnt ∧
    10 ≤ (t.deadline - t.now).toNat ∧ (t.deadline - t.now).toNat ≤ 19 ∧ t.deadline ≠ t.now

/-- 44_scheduler.md R136. PLAN.BUILD as a step of its own is the spec's decision D33. -/
def Obligations.PlanBuildSelectsNextBuffer : Prop :=
  ∀ s, s.st = .planBuild →
    (s.nxtSync = false → exec .planBuild s = .next { s with sel := .id, st := .wait }) ∧
    (s.nxtSync = true → ∃ t, exec .planBuild s = .next t ∧
      t = { s with acc8 := t.acc8, sr := t.sr, cw := t.cw, mem := t.mem, sel := .ts, st := .wait } ∧
      t.cw = refCodeword (refTsPayload s.deadline s.eval) ∧ Coded t.mem .ts t.cw ∧
      ∀ c i, c ≠ .ts ∨ i < 20 ∨ 100 ≤ i → t.mem.byte? c i = s.mem.byte? c i)

/-- 44_scheduler.md R137, the enabled step. -/
def Obligations.WaitLeavesAtDeadline : Prop :=
  ∀ s, s.st = .wait → s.tickCnt = s.deadline → exec .wait s = .next { s with st := .txBegin }

/-- 44_scheduler.md R130: a step of SEQ whose row or guard does not hold does not run. The last clause is TICK.ADV's
guard of R138, the spec's own decision D21 (entry 22). That such a turn leaves everything as it is, is the model's choice
(entry 3). -/
def Obligations.StuckStepsChangeNothing : Prop :=
  ∀ s, (s.st ≠ .boot → exec .seqBoot s = .next s) ∧ (s.st ≠ .txBegin → exec .txBegin s = .next s) ∧
    (s.st ≠ .txUnit ∨ s.phyReady = false → exec .txUnit s = .next s) ∧
    (s.st ≠ .txEnd ∨ s.phyBusy = true → exec .txEnd s = .next s) ∧
    (s.st ≠ .planSnap → exec .planSnap s = .next s) ∧ (s.st ≠ .planBuild → exec .planBuild s = .next s) ∧
    (s.st ≠ .wait ∨ s.tickCnt ≠ s.deadline → exec .wait s = .next s) ∧
    (s.st = .wait → s.tickCnt = s.deadline → exec .tickAdv s = .next s)

/-! ### The tick and its interrupt -/

/-- 44_scheduler.md R138, the enabled step: plus 1; at the wrap the interrupt is taken at once, or latched. The latch
and the guard are the spec's decisions D18, D20, D21. -/
def Obligations.TickAdvCountsAndRaises : Prop :=
  ∀ s, ¬ (s.st = .wait ∧ s.tickCnt = s.deadline) →
    (s.tickCnt ≠ 0xFFFF → exec .tickAdv s = .next { s with tickCnt := s.tickCnt + 1 }) ∧
    (s.tickCnt = 0xFFFF → s.irqMask = false →
      exec .tickAdv s = .next { s with tickCnt := 0, epoch := s.epoch + 1, ovfPending := false }) ∧
    (s.tickCnt = 0xFFFF → s.irqMask = true → exec .tickAdv s = .next { s with tickCnt := 0, ovfPending := true })

/-- 44_scheduler.md R139: the interrupt's whole effect, and nothing saved or changed besides (60_exceptions.md R163). -/
def Obligations.EpochIncCountsOnce : Prop :=
  ∀ s, exec .epochInc s = .next { s with epoch := BitVec.ofNat 16 ((s.epoch.toNat + 1) % 65536), ovfPending := false }

/-- 60_exceptions.md R162 (d), 44_scheduler.md R138: a second wrap in one drain is lost, TX.END counts one (D20). -/
def Obligations.SecondWrapInDrainIsLost : Prop :=
  ∀ s, s.st = .txEnd → s.phyBusy = false → s.irqMask = true → s.tickCnt = 0xFFFF →
    execs [.tickAdv, .txEnd] s = execs [.tickAdv, .txEnd] { s with ovfPending := !s.ovfPending } ∧
    execs [.tickAdv, .txEnd] s = .next { s with
      tickCnt := 0, irqMask := false, ovfPending := false, epoch := s.epoch + 1, st := .planSnap }

/-- 10_state.md R20's invariant under P_DRAIN (70_reset_and_hazards.md R187): no increment is lost. Every step but a
reset, and but the TICK.ADV of a second wrap in one drain, adds exactly its tick to the time told, a latched wrap
counted. That a masked wrap is latched one deep and counted by TX.END, and a second one lost, is the spec's own
decisions D18 to D20 (entry 21). -/
def Obligations.NoIncrementLost : Prop :=
  ∀ s t, CoreInv s → DrainInTime s → s.resets = false → step s = .next t →
    t.toldTime = if s.ticks = true then s.toldTime + 1 else s.toldTime

/-! ### Whole-machine rules -/

/-- 10_state.md R35, 42_framer.md R112, 44_scheduler.md R142 and the rest hold at reset, where nothing is framed,
announced or sent. CoreInv's clauses on `ident` and on `deadline` and `now` rest here on the reset values of
entry 7. -/
def Obligations.InvariantsHoldAtReset : Prop :=
  CoreInv State.reset ∧ FrameInv State.reset ∧ Announced State.reset ∧ LineInv State.reset ∧ Selected State.reset

/-- 10_state.md R35, from every state that meets it: every step keeps it. After a step that asserts `rst` and before
the next PLAN.SNAP, that `deadline` differs from `now` rests on the reset values of entry 7. -/
def Obligations.CoreInvKeptByStep : Prop := ∀ s t, CoreInv s → step s = .next t → CoreInv t

/-- From every state whose buffers are framed as R112 and R182 say, every step keeps them so. -/
def Obligations.FrameInvKeptByStep : Prop := ∀ s t, FrameInv s → step s = .next t → FrameInv t

/-- 93_implementation_defined.md U11, 60_exceptions.md R160: no step of a run faults, and the one refusal is a jitter
draw outside its contract. -/
def Obligations.NoFaultUnderInvariants : Prop :=
  ∀ s, CoreInv s → FrameInv s → (∀ f, step s ≠ .fault f) ∧
    ∀ r, step s = .refused r → r = .jitterOutOfContract s.jitterIn ∧ 10 ≤ s.jitterIn.toNat ∧ s.snaps = true

/-- 44_scheduler.md R142's reasoning, from PLAN.SNAP to the next frame, under P_PLAN (R188): fewer than 10 ticks before
WAIT. It rests on the spec's decisions D17, D18, D21 and D33 (entries 15, 21 and 22). -/
def Obligations.AnnouncedKeptByStep : Prop :=
  ∀ s t, CoreInv s → Announced s → PlanInTime s → step s = .next t → Announced t

/-- 44_scheduler.md R142: at the step that leaves WAIT before a time-sync frame the counter is at the announced
deadline, the epoch is the announced one, and the buffer about to be sent carries both. It rests on D17, D18, D21
and D33 (entries 15, 21 and 22). -/
def Obligations.TimeSyncBeaconTellsTheTruth : Prop :=
  ∀ s, CoreInv s → Announced s → s.st = .wait → s.nxtSync = true → s.tickCnt = s.deadline →
    ∃ t, exec .wait s = .next t ∧ t.st = .txBegin ∧ t.sel = .ts ∧ t.epoch = t.eval ∧
      Coded t.mem .ts (refCodeword (refTsPayload t.tickCnt t.epoch))

/-- 44_scheduler.md R135, R144 (b), R140's step: a PLAN.SNAP advances `cyc` modulo 667 and plans a time-sync frame
exactly when the new value is 0; no other step but a reset writes either. Where the counter advances is the spec's
decision D12 (entry 20). -/
def Obligations.OnlyPlanSnapAdvancesCycle : Prop :=
  ∀ s t, s.cyc.toNat ≤ 666 → s.resets = false → step s = .next t →
    (s.snaps = true → t.cyc.toNat = (s.cyc.toNat + 1) % 667 ∧ t.nxtSync = decide (t.cyc = 0)) ∧
    (s.snaps = false → t.cyc = s.cyc ∧ t.nxtSync = s.nxtSync)

/-- 44_scheduler.md R140, by the step of OnlyPlanSnapAdvancesCycle and D12 (entry 20): over any stretch without a reset
the cycle counter counts the PLAN.SNAPs modulo 667, and the last one announced a time-sync frame exactly when it
wrapped; so of any 667 in a row exactly one does. -/
def Obligations.CadenceOfTimeSync : Prop :=
  ∀ n s t, Run n s t → s.cyc.toNat ≤ 666 →
    t.cyc.toNat = (s.cyc.toNat + n) % 667 ∧ (0 < n → t.nxtSync = decide ((s.cyc.toNat + n) % 667 = 0))

/-- 44_scheduler.md R140, with CadenceOfTimeSync: the frame after a PLAN.SNAP that wrapped the cycle counter is the
time-sync beacon, every other frame the identity beacon. -/
def Obligations.SelectedKeptByStep : Prop := ∀ s t, Selected s → step s = .next t → Selected t

/-- 44_scheduler.md R135's net effect on `led`, R143, by D14 (entry 20): a step leaves `led` and `nxt_sync`, or sets
`led` to the complement of the `nxt_sync` it sets. Only a reset does otherwise. -/
def Obligations.LedShowsNextFrame : Prop :=
  ∀ s t, s.resets = false → step s = .next t →
    (t.led = s.led ∧ t.nxtSync = s.nxtSync) ∨ (t.led = !t.nxtSync ∧ s.snaps = true)

/-- 10_state.md R11 (1), 30_encoding.md R68: the line trace is one whole beacon of this device after another, each
training, preamble, the 80 symbols of the identity or of a time-sync codeword, and trailer; in a drain the units of the
selected buffer sent so far come after them. The trace is entry 12; a reset may cut a frame short
(93_implementation_defined.md U18). -/
def Obligations.LineIsWholeBeacons : Prop :=
  ∀ s t, CoreInv s → FrameInv s → LineInv s → s.resets = false → step s = .next t → LineInv t

/-- 44_scheduler.md R133, 30_encoding.md R68: 104 ready TX.UNITs send the selected buffer's bytes in ascending offset
order and end the drain. -/
def Obligations.DrainSendsWholeFrame : Prop :=
  ∀ s (f : Nat → Byte), s.st = .txUnit → s.idx = 0 → s.phyReady = true →
    (∀ i, i < 104 → s.mem.byte? s.sel i = some (f i)) →
    execs (List.replicate 104 .txUnit) s = .next { s with
      idx := 104, st := .txEnd, phyData := f 103, phySend := true, line := s.line ++ (List.range 104).map f }

/-- 44_scheduler.md R137, R138: in a wait the ticks bring the counter to the deadline and cannot pass it, and there the
wait ends. That TICK.ADV is not enabled at the deadline is the spec's decision D21 (entry 22); that its turn then leaves
the state as it is, is the model's choice (entry 3). -/
def Obligations.WaitEndsAtDeadline : Prop :=
  ∀ s, s.st = .wait → ∃ t, execs (List.replicate (s.deadline - s.tickCnt).toNat .tickAdv) s = .next t ∧
    t.tickCnt = s.deadline ∧ t.deadline = s.deadline ∧ t.st = .wait ∧ exec .tickAdv t = .next t ∧
    exec .wait t = .next { t with st := .txBegin }

/-- 60_exceptions.md R166, 10_state.md R20: the epoch changes by one, in the tick handler's two places only, inside
TICK.ADV and inside TX.END (44_scheduler.md R139; D18, entry 21), or in an EPOCH.INC issued by itself, which is the
model's own third place (entry 4). -/
def Obligations.EpochOnlyByHandler : Prop :=
  ∀ s t, s.resets = false → step s = .next t → t.epoch = s.epoch ∨ t.epoch = s.epoch + 1 ∧
    (s.fetch = .op ⟨0b11000, .none⟩ ∧ s.tickCnt = 0xFFFF ∧ s.irqMask = false ∨
     s.fetch = .op ⟨0b10011, .none⟩ ∧ s.st = .txEnd ∧ s.phyBusy = false ∧ s.ovfPending = true ∨
     s.fetch = .op ⟨0b11001, .none⟩)

/-- 70_reset_and_hazards.md R192, 10_state.md R21: only TX.BEGIN sets the mask, only TX.END clears it. That
extent is the spec's decision D19 (entry 21). -/
def Obligations.MaskOnlyByDrain : Prop :=
  ∀ s t, s.resets = false → step s = .next t → t.irqMask = s.irqMask ∨
    t.irqMask = true ∧ s.fetch = .op ⟨0b10001, .none⟩ ∧ t.st = .txUnit ∨
    t.irqMask = false ∧ s.fetch = .op ⟨0b10011, .none⟩ ∧ t.st = .planSnap

/-- 10_state.md R11 (1), 44_scheduler.md R133: the line trace grows by TX.UNIT alone, by the unit at `idx` of the
selected buffer, and only when PHY is ready. The trace is entry 12. -/
def Obligations.LineGrowsByTxUnitOnly : Prop :=
  ∀ s t, step s = .next t → t.line = s.line ∧ t.phySend = false ∨
    ∃ v, t.line = s.line ++ [v] ∧ t.phySend = true ∧ t.phyData = v ∧ s.fetch = .op ⟨0b10010, .none⟩ ∧
      s.phyReady = true ∧ s.mem.byte? s.sel s.idx.toNat = some v

/-- 70_reset_and_hazards.md R191, derived there: no write to either buffer while a drain runs. -/
def Obligations.BuffersUntouchedDuringDrain : Prop :=
  ∀ s t, s.issue = none → s.resets = false → s.st = .txUnit ∨ s.st = .txEnd → step s = .next t → t.mem = s.mem

/-- 10_state.md R30, 70_reset_and_hazards.md R182: after BOOT the identity buffer and the identity never change, and
BOOT does not come back without a reset. -/
def Obligations.IdentityBeaconImmutable : Prop :=
  ∀ s t, s.issue = none → s.resets = false → s.st ≠ .boot → step s = .next t →
    SameBuffer s.mem t.mem .id ∧ t.ident = s.ident ∧ t.st ≠ .boot

/-- 70_reset_and_hazards.md R182: `uid` is read once at startup; afterwards a change of it has no effect on any step. -/
def Obligations.UidReadOnceAtStartup : Prop :=
  ∀ s u, s.issue = none → s.st ≠ .boot → step { s with uid := u } = mapNext (fun t => { t with uid := u }) (step s)

/-- 10_state.md R26: no operation reads `led`: two states that differ in it step to states that differ at most in it. -/
def Obligations.LedIsNeverRead : Prop :=
  ∀ s l, mapNext (fun t => { t with led := false }) (step { s with led := l }) =
    mapNext (fun t => { t with led := false }) (step s)
end

