-- ==== Sys2Proof/Laws/State.lean ====
section
/-! SUPPORT. One lemma per field per named update of State, true by rfl, so that no later proof unfolds one. -/

namespace Sys2Proof.Machine

/-! ### crc32Clr -/

@[simp] theorem State.crc32Clr_acc32 (s : State) : s.crc32Clr.acc32 = init32 := rfl
@[simp] theorem State.crc32Clr_acc8 (s : State) : s.crc32Clr.acc8 = s.acc8 := rfl
@[simp] theorem State.crc32Clr_sr (s : State) : s.crc32Clr.sr = s.sr := rfl
@[simp] theorem State.crc32Clr_cw (s : State) : s.crc32Clr.cw = s.cw := rfl
@[simp] theorem State.crc32Clr_ident (s : State) : s.crc32Clr.ident = s.ident := rfl
@[simp] theorem State.crc32Clr_now (s : State) : s.crc32Clr.now = s.now := rfl
@[simp] theorem State.crc32Clr_jit (s : State) : s.crc32Clr.jit = s.jit := rfl
@[simp] theorem State.crc32Clr_deadline (s : State) : s.crc32Clr.deadline = s.deadline := rfl
@[simp] theorem State.crc32Clr_eval (s : State) : s.crc32Clr.eval = s.eval := rfl
@[simp] theorem State.crc32Clr_epoch (s : State) : s.crc32Clr.epoch = s.epoch := rfl
@[simp] theorem State.crc32Clr_irqMask (s : State) : s.crc32Clr.irqMask = s.irqMask := rfl
@[simp] theorem State.crc32Clr_ovfPending (s : State) : s.crc32Clr.ovfPending = s.ovfPending := rfl
@[simp] theorem State.crc32Clr_cyc (s : State) : s.crc32Clr.cyc = s.cyc := rfl
@[simp] theorem State.crc32Clr_sel (s : State) : s.crc32Clr.sel = s.sel := rfl
@[simp] theorem State.crc32Clr_nxtSync (s : State) : s.crc32Clr.nxtSync = s.nxtSync := rfl
@[simp] theorem State.crc32Clr_led (s : State) : s.crc32Clr.led = s.led := rfl
@[simp] theorem State.crc32Clr_st (s : State) : s.crc32Clr.st = s.st := rfl
@[simp] theorem State.crc32Clr_idx (s : State) : s.crc32Clr.idx = s.idx := rfl
@[simp] theorem State.crc32Clr_mem (s : State) : s.crc32Clr.mem = s.mem := rfl
@[simp] theorem State.crc32Clr_pre (s : State) : s.crc32Clr.pre = s.pre := rfl
@[simp] theorem State.crc32Clr_uid (s : State) : s.crc32Clr.uid = s.uid := rfl
@[simp] theorem State.crc32Clr_tickCnt (s : State) : s.crc32Clr.tickCnt = s.tickCnt := rfl
@[simp] theorem State.crc32Clr_jitterIn (s : State) : s.crc32Clr.jitterIn = s.jitterIn := rfl
@[simp] theorem State.crc32Clr_phyReady (s : State) : s.crc32Clr.phyReady = s.phyReady := rfl
@[simp] theorem State.crc32Clr_phyBusy (s : State) : s.crc32Clr.phyBusy = s.phyBusy := rfl
@[simp] theorem State.crc32Clr_rst (s : State) : s.crc32Clr.rst = s.rst := rfl
@[simp] theorem State.crc32Clr_phyData (s : State) : s.crc32Clr.phyData = s.phyData := rfl
@[simp] theorem State.crc32Clr_phySend (s : State) : s.crc32Clr.phySend = s.phySend := rfl
@[simp] theorem State.crc32Clr_line (s : State) : s.crc32Clr.line = s.line := rfl
@[simp] theorem State.crc32Clr_ret (s : State) : s.crc32Clr.ret = s.ret := rfl
@[simp] theorem State.crc32Clr_turns (s : State) : s.crc32Clr.turns = s.turns := rfl
@[simp] theorem State.crc32Clr_draws (s : State) : s.crc32Clr.draws = s.draws := rfl
@[simp] theorem State.crc32Clr_issue (s : State) : s.crc32Clr.issue = s.issue := rfl

/-! ### crc32Bit -/

@[simp] theorem State.crc32Bit_acc32 (s : State) (d : Bit) : (s.crc32Bit d).acc32 = crc32Step s.acc32 d := rfl
@[simp] theorem State.crc32Bit_acc8 (s : State) (d : Bit) : (s.crc32Bit d).acc8 = s.acc8 := rfl
@[simp] theorem State.crc32Bit_sr (s : State) (d : Bit) : (s.crc32Bit d).sr = s.sr := rfl
@[simp] theorem State.crc32Bit_cw (s : State) (d : Bit) : (s.crc32Bit d).cw = s.cw := rfl
@[simp] theorem State.crc32Bit_ident (s : State) (d : Bit) : (s.crc32Bit d).ident = s.ident := rfl
@[simp] theorem State.crc32Bit_now (s : State) (d : Bit) : (s.crc32Bit d).now = s.now := rfl
@[simp] theorem State.crc32Bit_jit (s : State) (d : Bit) : (s.crc32Bit d).jit = s.jit := rfl
@[simp] theorem State.crc32Bit_deadline (s : State) (d : Bit) : (s.crc32Bit d).deadline = s.deadline := rfl
@[simp] theorem State.crc32Bit_eval (s : State) (d : Bit) : (s.crc32Bit d).eval = s.eval := rfl
@[simp] theorem State.crc32Bit_epoch (s : State) (d : Bit) : (s.crc32Bit d).epoch = s.epoch := rfl
@[simp] theorem State.crc32Bit_irqMask (s : State) (d : Bit) : (s.crc32Bit d).irqMask = s.irqMask := rfl
@[simp] theorem State.crc32Bit_ovfPending (s : State) (d : Bit) : (s.crc32Bit d).ovfPending = s.ovfPending := rfl
@[simp] theorem State.crc32Bit_cyc (s : State) (d : Bit) : (s.crc32Bit d).cyc = s.cyc := rfl
@[simp] theorem State.crc32Bit_sel (s : State) (d : Bit) : (s.crc32Bit d).sel = s.sel := rfl
@[simp] theorem State.crc32Bit_nxtSync (s : State) (d : Bit) : (s.crc32Bit d).nxtSync = s.nxtSync := rfl
@[simp] theorem State.crc32Bit_led (s : State) (d : Bit) : (s.crc32Bit d).led = s.led := rfl
@[simp] theorem State.crc32Bit_st (s : State) (d : Bit) : (s.crc32Bit d).st = s.st := rfl
@[simp] theorem State.crc32Bit_idx (s : State) (d : Bit) : (s.crc32Bit d).idx = s.idx := rfl
@[simp] theorem State.crc32Bit_mem (s : State) (d : Bit) : (s.crc32Bit d).mem = s.mem := rfl
@[simp] theorem State.crc32Bit_pre (s : State) (d : Bit) : (s.crc32Bit d).pre = s.pre := rfl
@[simp] theorem State.crc32Bit_uid (s : State) (d : Bit) : (s.crc32Bit d).uid = s.uid := rfl
@[simp] theorem State.crc32Bit_tickCnt (s : State) (d : Bit) : (s.crc32Bit d).tickCnt = s.tickCnt := rfl
@[simp] theorem State.crc32Bit_jitterIn (s : State) (d : Bit) : (s.crc32Bit d).jitterIn = s.jitterIn := rfl
@[simp] theorem State.crc32Bit_phyReady (s : State) (d : Bit) : (s.crc32Bit d).phyReady = s.phyReady := rfl
@[simp] theorem State.crc32Bit_phyBusy (s : State) (d : Bit) : (s.crc32Bit d).phyBusy = s.phyBusy := rfl
@[simp] theorem State.crc32Bit_rst (s : State) (d : Bit) : (s.crc32Bit d).rst = s.rst := rfl
@[simp] theorem State.crc32Bit_phyData (s : State) (d : Bit) : (s.crc32Bit d).phyData = s.phyData := rfl
@[simp] theorem State.crc32Bit_phySend (s : State) (d : Bit) : (s.crc32Bit d).phySend = s.phySend := rfl
@[simp] theorem State.crc32Bit_line (s : State) (d : Bit) : (s.crc32Bit d).line = s.line := rfl
@[simp] theorem State.crc32Bit_ret (s : State) (d : Bit) : (s.crc32Bit d).ret = s.ret := rfl
@[simp] theorem State.crc32Bit_turns (s : State) (d : Bit) : (s.crc32Bit d).turns = s.turns := rfl
@[simp] theorem State.crc32Bit_draws (s : State) (d : Bit) : (s.crc32Bit d).draws = s.draws := rfl
@[simp] theorem State.crc32Bit_issue (s : State) (d : Bit) : (s.crc32Bit d).issue = s.issue := rfl

/-! ### crc8Clr -/

@[simp] theorem State.crc8Clr_acc32 (s : State) : s.crc8Clr.acc32 = s.acc32 := rfl
@[simp] theorem State.crc8Clr_acc8 (s : State) : s.crc8Clr.acc8 = init8 := rfl
@[simp] theorem State.crc8Clr_sr (s : State) : s.crc8Clr.sr = s.sr := rfl
@[simp] theorem State.crc8Clr_cw (s : State) : s.crc8Clr.cw = s.cw := rfl
@[simp] theorem State.crc8Clr_ident (s : State) : s.crc8Clr.ident = s.ident := rfl
@[simp] theorem State.crc8Clr_now (s : State) : s.crc8Clr.now = s.now := rfl
@[simp] theorem State.crc8Clr_jit (s : State) : s.crc8Clr.jit = s.jit := rfl
@[simp] theorem State.crc8Clr_deadline (s : State) : s.crc8Clr.deadline = s.deadline := rfl
@[simp] theorem State.crc8Clr_eval (s : State) : s.crc8Clr.eval = s.eval := rfl
@[simp] theorem State.crc8Clr_epoch (s : State) : s.crc8Clr.epoch = s.epoch := rfl
@[simp] theorem State.crc8Clr_irqMask (s : State) : s.crc8Clr.irqMask = s.irqMask := rfl
@[simp] theorem State.crc8Clr_ovfPending (s : State) : s.crc8Clr.ovfPending = s.ovfPending := rfl
@[simp] theorem State.crc8Clr_cyc (s : State) : s.crc8Clr.cyc = s.cyc := rfl
@[simp] theorem State.crc8Clr_sel (s : State) : s.crc8Clr.sel = s.sel := rfl
@[simp] theorem State.crc8Clr_nxtSync (s : State) : s.crc8Clr.nxtSync = s.nxtSync := rfl
@[simp] theorem State.crc8Clr_led (s : State) : s.crc8Clr.led = s.led := rfl
@[simp] theorem State.crc8Clr_st (s : State) : s.crc8Clr.st = s.st := rfl
@[simp] theorem State.crc8Clr_idx (s : State) : s.crc8Clr.idx = s.idx := rfl
@[simp] theorem State.crc8Clr_mem (s : State) : s.crc8Clr.mem = s.mem := rfl
@[simp] theorem State.crc8Clr_pre (s : State) : s.crc8Clr.pre = s.pre := rfl
@[simp] theorem State.crc8Clr_uid (s : State) : s.crc8Clr.uid = s.uid := rfl
@[simp] theorem State.crc8Clr_tickCnt (s : State) : s.crc8Clr.tickCnt = s.tickCnt := rfl
@[simp] theorem State.crc8Clr_jitterIn (s : State) : s.crc8Clr.jitterIn = s.jitterIn := rfl
@[simp] theorem State.crc8Clr_phyReady (s : State) : s.crc8Clr.phyReady = s.phyReady := rfl
@[simp] theorem State.crc8Clr_phyBusy (s : State) : s.crc8Clr.phyBusy = s.phyBusy := rfl
@[simp] theorem State.crc8Clr_rst (s : State) : s.crc8Clr.rst = s.rst := rfl
@[simp] theorem State.crc8Clr_phyData (s : State) : s.crc8Clr.phyData = s.phyData := rfl
@[simp] theorem State.crc8Clr_phySend (s : State) : s.crc8Clr.phySend = s.phySend := rfl
@[simp] theorem State.crc8Clr_line (s : State) : s.crc8Clr.line = s.line := rfl
@[simp] theorem State.crc8Clr_ret (s : State) : s.crc8Clr.ret = s.ret := rfl
@[simp] theorem State.crc8Clr_turns (s : State) : s.crc8Clr.turns = s.turns := rfl
@[simp] theorem State.crc8Clr_draws (s : State) : s.crc8Clr.draws = s.draws := rfl
@[simp] theorem State.crc8Clr_issue (s : State) : s.crc8Clr.issue = s.issue := rfl

/-! ### crc8Byte -/

@[simp] theorem State.crc8Byte_acc32 (s : State) (b : Byte) : (s.crc8Byte b).acc32 = s.acc32 := rfl
@[simp] theorem State.crc8Byte_acc8 (s : State) (b : Byte) : (s.crc8Byte b).acc8 = forUp 8 (fun _ acc => crc8Shift acc) (s.acc8 ^^^ b) := rfl
@[simp] theorem State.crc8Byte_sr (s : State) (b : Byte) : (s.crc8Byte b).sr = s.sr := rfl
@[simp] theorem State.crc8Byte_cw (s : State) (b : Byte) : (s.crc8Byte b).cw = s.cw := rfl
@[simp] theorem State.crc8Byte_ident (s : State) (b : Byte) : (s.crc8Byte b).ident = s.ident := rfl
@[simp] theorem State.crc8Byte_now (s : State) (b : Byte) : (s.crc8Byte b).now = s.now := rfl
@[simp] theorem State.crc8Byte_jit (s : State) (b : Byte) : (s.crc8Byte b).jit = s.jit := rfl
@[simp] theorem State.crc8Byte_deadline (s : State) (b : Byte) : (s.crc8Byte b).deadline = s.deadline := rfl
@[simp] theorem State.crc8Byte_eval (s : State) (b : Byte) : (s.crc8Byte b).eval = s.eval := rfl
@[simp] theorem State.crc8Byte_epoch (s : State) (b : Byte) : (s.crc8Byte b).epoch = s.epoch := rfl
@[simp] theorem State.crc8Byte_irqMask (s : State) (b : Byte) : (s.crc8Byte b).irqMask = s.irqMask := rfl
@[simp] theorem State.crc8Byte_ovfPending (s : State) (b : Byte) : (s.crc8Byte b).ovfPending = s.ovfPending := rfl
@[simp] theorem State.crc8Byte_cyc (s : State) (b : Byte) : (s.crc8Byte b).cyc = s.cyc := rfl
@[simp] theorem State.crc8Byte_sel (s : State) (b : Byte) : (s.crc8Byte b).sel = s.sel := rfl
@[simp] theorem State.crc8Byte_nxtSync (s : State) (b : Byte) : (s.crc8Byte b).nxtSync = s.nxtSync := rfl
@[simp] theorem State.crc8Byte_led (s : State) (b : Byte) : (s.crc8Byte b).led = s.led := rfl
@[simp] theorem State.crc8Byte_st (s : State) (b : Byte) : (s.crc8Byte b).st = s.st := rfl
@[simp] theorem State.crc8Byte_idx (s : State) (b : Byte) : (s.crc8Byte b).idx = s.idx := rfl
@[simp] theorem State.crc8Byte_mem (s : State) (b : Byte) : (s.crc8Byte b).mem = s.mem := rfl
@[simp] theorem State.crc8Byte_pre (s : State) (b : Byte) : (s.crc8Byte b).pre = s.pre := rfl
@[simp] theorem State.crc8Byte_uid (s : State) (b : Byte) : (s.crc8Byte b).uid = s.uid := rfl
@[simp] theorem State.crc8Byte_tickCnt (s : State) (b : Byte) : (s.crc8Byte b).tickCnt = s.tickCnt := rfl
@[simp] theorem State.crc8Byte_jitterIn (s : State) (b : Byte) : (s.crc8Byte b).jitterIn = s.jitterIn := rfl
@[simp] theorem State.crc8Byte_phyReady (s : State) (b : Byte) : (s.crc8Byte b).phyReady = s.phyReady := rfl
@[simp] theorem State.crc8Byte_phyBusy (s : State) (b : Byte) : (s.crc8Byte b).phyBusy = s.phyBusy := rfl
@[simp] theorem State.crc8Byte_rst (s : State) (b : Byte) : (s.crc8Byte b).rst = s.rst := rfl
@[simp] theorem State.crc8Byte_phyData (s : State) (b : Byte) : (s.crc8Byte b).phyData = s.phyData := rfl
@[simp] theorem State.crc8Byte_phySend (s : State) (b : Byte) : (s.crc8Byte b).phySend = s.phySend := rfl
@[simp] theorem State.crc8Byte_line (s : State) (b : Byte) : (s.crc8Byte b).line = s.line := rfl
@[simp] theorem State.crc8Byte_ret (s : State) (b : Byte) : (s.crc8Byte b).ret = s.ret := rfl
@[simp] theorem State.crc8Byte_turns (s : State) (b : Byte) : (s.crc8Byte b).turns = s.turns := rfl
@[simp] theorem State.crc8Byte_draws (s : State) (b : Byte) : (s.crc8Byte b).draws = s.draws := rfl
@[simp] theorem State.crc8Byte_issue (s : State) (b : Byte) : (s.crc8Byte b).issue = s.issue := rfl

/-! ### encClr -/

@[simp] theorem State.encClr_acc32 (s : State) : s.encClr.acc32 = s.acc32 := rfl
@[simp] theorem State.encClr_acc8 (s : State) : s.encClr.acc8 = s.acc8 := rfl
@[simp] theorem State.encClr_sr (s : State) : s.encClr.sr = 0 := rfl
@[simp] theorem State.encClr_cw (s : State) : s.encClr.cw = s.cw := rfl
@[simp] theorem State.encClr_ident (s : State) : s.encClr.ident = s.ident := rfl
@[simp] theorem State.encClr_now (s : State) : s.encClr.now = s.now := rfl
@[simp] theorem State.encClr_jit (s : State) : s.encClr.jit = s.jit := rfl
@[simp] theorem State.encClr_deadline (s : State) : s.encClr.deadline = s.deadline := rfl
@[simp] theorem State.encClr_eval (s : State) : s.encClr.eval = s.eval := rfl
@[simp] theorem State.encClr_epoch (s : State) : s.encClr.epoch = s.epoch := rfl
@[simp] theorem State.encClr_irqMask (s : State) : s.encClr.irqMask = s.irqMask := rfl
@[simp] theorem State.encClr_ovfPending (s : State) : s.encClr.ovfPending = s.ovfPending := rfl
@[simp] theorem State.encClr_cyc (s : State) : s.encClr.cyc = s.cyc := rfl
@[simp] theorem State.encClr_sel (s : State) : s.encClr.sel = s.sel := rfl
@[simp] theorem State.encClr_nxtSync (s : State) : s.encClr.nxtSync = s.nxtSync := rfl
@[simp] theorem State.encClr_led (s : State) : s.encClr.led = s.led := rfl
@[simp] theorem State.encClr_st (s : State) : s.encClr.st = s.st := rfl
@[simp] theorem State.encClr_idx (s : State) : s.encClr.idx = s.idx := rfl
@[simp] theorem State.encClr_mem (s : State) : s.encClr.mem = s.mem := rfl
@[simp] theorem State.encClr_pre (s : State) : s.encClr.pre = s.pre := rfl
@[simp] theorem State.encClr_uid (s : State) : s.encClr.uid = s.uid := rfl
@[simp] theorem State.encClr_tickCnt (s : State) : s.encClr.tickCnt = s.tickCnt := rfl
@[simp] theorem State.encClr_jitterIn (s : State) : s.encClr.jitterIn = s.jitterIn := rfl
@[simp] theorem State.encClr_phyReady (s : State) : s.encClr.phyReady = s.phyReady := rfl
@[simp] theorem State.encClr_phyBusy (s : State) : s.encClr.phyBusy = s.phyBusy := rfl
@[simp] theorem State.encClr_rst (s : State) : s.encClr.rst = s.rst := rfl
@[simp] theorem State.encClr_phyData (s : State) : s.encClr.phyData = s.phyData := rfl
@[simp] theorem State.encClr_phySend (s : State) : s.encClr.phySend = s.phySend := rfl
@[simp] theorem State.encClr_line (s : State) : s.encClr.line = s.line := rfl
@[simp] theorem State.encClr_ret (s : State) : s.encClr.ret = s.ret := rfl
@[simp] theorem State.encClr_turns (s : State) : s.encClr.turns = s.turns := rfl
@[simp] theorem State.encClr_draws (s : State) : s.encClr.draws = s.draws := rfl
@[simp] theorem State.encClr_issue (s : State) : s.encClr.issue = s.issue := rfl

/-! ### encBit -/

@[simp] theorem State.encBit_acc32 (s : State) (d : Bit) : (s.encBit d).acc32 = s.acc32 := rfl
@[simp] theorem State.encBit_acc8 (s : State) (d : Bit) : (s.encBit d).acc8 = s.acc8 := rfl
@[simp] theorem State.encBit_sr (s : State) (d : Bit) : (s.encBit d).sr = encShift s.sr d := rfl
@[simp] theorem State.encBit_cw (s : State) (d : Bit) : (s.encBit d).cw = s.cw := rfl
@[simp] theorem State.encBit_ident (s : State) (d : Bit) : (s.encBit d).ident = s.ident := rfl
@[simp] theorem State.encBit_now (s : State) (d : Bit) : (s.encBit d).now = s.now := rfl
@[simp] theorem State.encBit_jit (s : State) (d : Bit) : (s.encBit d).jit = s.jit := rfl
@[simp] theorem State.encBit_deadline (s : State) (d : Bit) : (s.encBit d).deadline = s.deadline := rfl
@[simp] theorem State.encBit_eval (s : State) (d : Bit) : (s.encBit d).eval = s.eval := rfl
@[simp] theorem State.encBit_epoch (s : State) (d : Bit) : (s.encBit d).epoch = s.epoch := rfl
@[simp] theorem State.encBit_irqMask (s : State) (d : Bit) : (s.encBit d).irqMask = s.irqMask := rfl
@[simp] theorem State.encBit_ovfPending (s : State) (d : Bit) : (s.encBit d).ovfPending = s.ovfPending := rfl
@[simp] theorem State.encBit_cyc (s : State) (d : Bit) : (s.encBit d).cyc = s.cyc := rfl
@[simp] theorem State.encBit_sel (s : State) (d : Bit) : (s.encBit d).sel = s.sel := rfl
@[simp] theorem State.encBit_nxtSync (s : State) (d : Bit) : (s.encBit d).nxtSync = s.nxtSync := rfl
@[simp] theorem State.encBit_led (s : State) (d : Bit) : (s.encBit d).led = s.led := rfl
@[simp] theorem State.encBit_st (s : State) (d : Bit) : (s.encBit d).st = s.st := rfl
@[simp] theorem State.encBit_idx (s : State) (d : Bit) : (s.encBit d).idx = s.idx := rfl
@[simp] theorem State.encBit_mem (s : State) (d : Bit) : (s.encBit d).mem = s.mem := rfl
@[simp] theorem State.encBit_pre (s : State) (d : Bit) : (s.encBit d).pre = s.pre := rfl
@[simp] theorem State.encBit_uid (s : State) (d : Bit) : (s.encBit d).uid = s.uid := rfl
@[simp] theorem State.encBit_tickCnt (s : State) (d : Bit) : (s.encBit d).tickCnt = s.tickCnt := rfl
@[simp] theorem State.encBit_jitterIn (s : State) (d : Bit) : (s.encBit d).jitterIn = s.jitterIn := rfl
@[simp] theorem State.encBit_phyReady (s : State) (d : Bit) : (s.encBit d).phyReady = s.phyReady := rfl
@[simp] theorem State.encBit_phyBusy (s : State) (d : Bit) : (s.encBit d).phyBusy = s.phyBusy := rfl
@[simp] theorem State.encBit_rst (s : State) (d : Bit) : (s.encBit d).rst = s.rst := rfl
@[simp] theorem State.encBit_phyData (s : State) (d : Bit) : (s.encBit d).phyData = s.phyData := rfl
@[simp] theorem State.encBit_phySend (s : State) (d : Bit) : (s.encBit d).phySend = s.phySend := rfl
@[simp] theorem State.encBit_line (s : State) (d : Bit) : (s.encBit d).line = s.line := rfl
@[simp] theorem State.encBit_ret (s : State) (d : Bit) : (s.encBit d).ret = s.ret := rfl
@[simp] theorem State.encBit_turns (s : State) (d : Bit) : (s.encBit d).turns = s.turns := rfl
@[simp] theorem State.encBit_draws (s : State) (d : Bit) : (s.encBit d).draws = s.draws := rfl
@[simp] theorem State.encBit_issue (s : State) (d : Bit) : (s.encBit d).issue = s.issue := rfl

/-! ### memWrite -/

@[simp] theorem State.memWrite_acc32 (s : State) (b : BufSel) (i : Fin 104) (v : Byte) : (s.memWrite b i v).acc32 = s.acc32 := rfl
@[simp] theorem State.memWrite_acc8 (s : State) (b : BufSel) (i : Fin 104) (v : Byte) : (s.memWrite b i v).acc8 = s.acc8 := rfl
@[simp] theorem State.memWrite_sr (s : State) (b : BufSel) (i : Fin 104) (v : Byte) : (s.memWrite b i v).sr = s.sr := rfl
@[simp] theorem State.memWrite_cw (s : State) (b : BufSel) (i : Fin 104) (v : Byte) : (s.memWrite b i v).cw = s.cw := rfl
@[simp] theorem State.memWrite_ident (s : State) (b : BufSel) (i : Fin 104) (v : Byte) : (s.memWrite b i v).ident = s.ident := rfl
@[simp] theorem State.memWrite_now (s : State) (b : BufSel) (i : Fin 104) (v : Byte) : (s.memWrite b i v).now = s.now := rfl
@[simp] theorem State.memWrite_jit (s : State) (b : BufSel) (i : Fin 104) (v : Byte) : (s.memWrite b i v).jit = s.jit := rfl
@[simp] theorem State.memWrite_deadline (s : State) (b : BufSel) (i : Fin 104) (v : Byte) : (s.memWrite b i v).deadline = s.deadline := rfl
@[simp] theorem State.memWrite_eval (s : State) (b : BufSel) (i : Fin 104) (v : Byte) : (s.memWrite b i v).eval = s.eval := rfl
@[simp] theorem State.memWrite_epoch (s : State) (b : BufSel) (i : Fin 104) (v : Byte) : (s.memWrite b i v).epoch = s.epoch := rfl
@[simp] theorem State.memWrite_irqMask (s : State) (b : BufSel) (i : Fin 104) (v : Byte) : (s.memWrite b i v).irqMask = s.irqMask := rfl
@[simp] theorem State.memWrite_ovfPending (s : State) (b : BufSel) (i : Fin 104) (v : Byte) : (s.memWrite b i v).ovfPending = s.ovfPending := rfl
@[simp] theorem State.memWrite_cyc (s : State) (b : BufSel) (i : Fin 104) (v : Byte) : (s.memWrite b i v).cyc = s.cyc := rfl
@[simp] theorem State.memWrite_sel (s : State) (b : BufSel) (i : Fin 104) (v : Byte) : (s.memWrite b i v).sel = s.sel := rfl
@[simp] theorem State.memWrite_nxtSync (s : State) (b : BufSel) (i : Fin 104) (v : Byte) : (s.memWrite b i v).nxtSync = s.nxtSync := rfl
@[simp] theorem State.memWrite_led (s : State) (b : BufSel) (i : Fin 104) (v : Byte) : (s.memWrite b i v).led = s.led := rfl
@[simp] theorem State.memWrite_st (s : State) (b : BufSel) (i : Fin 104) (v : Byte) : (s.memWrite b i v).st = s.st := rfl
@[simp] theorem State.memWrite_idx (s : State) (b : BufSel) (i : Fin 104) (v : Byte) : (s.memWrite b i v).idx = s.idx := rfl
@[simp] theorem State.memWrite_mem (s : State) (b : BufSel) (i : Fin 104) (v : Byte) : (s.memWrite b i v).mem = s.mem.write b i v := rfl
@[simp] theorem State.memWrite_pre (s : State) (b : BufSel) (i : Fin 104) (v : Byte) : (s.memWrite b i v).pre = s.pre := rfl
@[simp] theorem State.memWrite_uid (s : State) (b : BufSel) (i : Fin 104) (v : Byte) : (s.memWrite b i v).uid = s.uid := rfl
@[simp] theorem State.memWrite_tickCnt (s : State) (b : BufSel) (i : Fin 104) (v : Byte) : (s.memWrite b i v).tickCnt = s.tickCnt := rfl
@[simp] theorem State.memWrite_jitterIn (s : State) (b : BufSel) (i : Fin 104) (v : Byte) : (s.memWrite b i v).jitterIn = s.jitterIn := rfl
@[simp] theorem State.memWrite_phyReady (s : State) (b : BufSel) (i : Fin 104) (v : Byte) : (s.memWrite b i v).phyReady = s.phyReady := rfl
@[simp] theorem State.memWrite_phyBusy (s : State) (b : BufSel) (i : Fin 104) (v : Byte) : (s.memWrite b i v).phyBusy = s.phyBusy := rfl
@[simp] theorem State.memWrite_rst (s : State) (b : BufSel) (i : Fin 104) (v : Byte) : (s.memWrite b i v).rst = s.rst := rfl
@[simp] theorem State.memWrite_phyData (s : State) (b : BufSel) (i : Fin 104) (v : Byte) : (s.memWrite b i v).phyData = s.phyData := rfl
@[simp] theorem State.memWrite_phySend (s : State) (b : BufSel) (i : Fin 104) (v : Byte) : (s.memWrite b i v).phySend = s.phySend := rfl
@[simp] theorem State.memWrite_line (s : State) (b : BufSel) (i : Fin 104) (v : Byte) : (s.memWrite b i v).line = s.line := rfl
@[simp] theorem State.memWrite_ret (s : State) (b : BufSel) (i : Fin 104) (v : Byte) : (s.memWrite b i v).ret = s.ret := rfl
@[simp] theorem State.memWrite_turns (s : State) (b : BufSel) (i : Fin 104) (v : Byte) : (s.memWrite b i v).turns = s.turns := rfl
@[simp] theorem State.memWrite_draws (s : State) (b : BufSel) (i : Fin 104) (v : Byte) : (s.memWrite b i v).draws = s.draws := rfl
@[simp] theorem State.memWrite_issue (s : State) (b : BufSel) (i : Fin 104) (v : Byte) : (s.memWrite b i v).issue = s.issue := rfl

/-! ### sendUnit -/

@[simp] theorem State.sendUnit_acc32 (s : State) (v : Byte) : (s.sendUnit v).acc32 = s.acc32 := rfl
@[simp] theorem State.sendUnit_acc8 (s : State) (v : Byte) : (s.sendUnit v).acc8 = s.acc8 := rfl
@[simp] theorem State.sendUnit_sr (s : State) (v : Byte) : (s.sendUnit v).sr = s.sr := rfl
@[simp] theorem State.sendUnit_cw (s : State) (v : Byte) : (s.sendUnit v).cw = s.cw := rfl
@[simp] theorem State.sendUnit_ident (s : State) (v : Byte) : (s.sendUnit v).ident = s.ident := rfl
@[simp] theorem State.sendUnit_now (s : State) (v : Byte) : (s.sendUnit v).now = s.now := rfl
@[simp] theorem State.sendUnit_jit (s : State) (v : Byte) : (s.sendUnit v).jit = s.jit := rfl
@[simp] theorem State.sendUnit_deadline (s : State) (v : Byte) : (s.sendUnit v).deadline = s.deadline := rfl
@[simp] theorem State.sendUnit_eval (s : State) (v : Byte) : (s.sendUnit v).eval = s.eval := rfl
@[simp] theorem State.sendUnit_epoch (s : State) (v : Byte) : (s.sendUnit v).epoch = s.epoch := rfl
@[simp] theorem State.sendUnit_irqMask (s : State) (v : Byte) : (s.sendUnit v).irqMask = s.irqMask := rfl
@[simp] theorem State.sendUnit_ovfPending (s : State) (v : Byte) : (s.sendUnit v).ovfPending = s.ovfPending := rfl
@[simp] theorem State.sendUnit_cyc (s : State) (v : Byte) : (s.sendUnit v).cyc = s.cyc := rfl
@[simp] theorem State.sendUnit_sel (s : State) (v : Byte) : (s.sendUnit v).sel = s.sel := rfl
@[simp] theorem State.sendUnit_nxtSync (s : State) (v : Byte) : (s.sendUnit v).nxtSync = s.nxtSync := rfl
@[simp] theorem State.sendUnit_led (s : State) (v : Byte) : (s.sendUnit v).led = s.led := rfl
@[simp] theorem State.sendUnit_st (s : State) (v : Byte) : (s.sendUnit v).st = s.st := rfl
@[simp] theorem State.sendUnit_idx (s : State) (v : Byte) : (s.sendUnit v).idx = s.idx := rfl
@[simp] theorem State.sendUnit_mem (s : State) (v : Byte) : (s.sendUnit v).mem = s.mem := rfl
@[simp] theorem State.sendUnit_pre (s : State) (v : Byte) : (s.sendUnit v).pre = s.pre := rfl
@[simp] theorem State.sendUnit_uid (s : State) (v : Byte) : (s.sendUnit v).uid = s.uid := rfl
@[simp] theorem State.sendUnit_tickCnt (s : State) (v : Byte) : (s.sendUnit v).tickCnt = s.tickCnt := rfl
@[simp] theorem State.sendUnit_jitterIn (s : State) (v : Byte) : (s.sendUnit v).jitterIn = s.jitterIn := rfl
@[simp] theorem State.sendUnit_phyReady (s : State) (v : Byte) : (s.sendUnit v).phyReady = s.phyReady := rfl
@[simp] theorem State.sendUnit_phyBusy (s : State) (v : Byte) : (s.sendUnit v).phyBusy = s.phyBusy := rfl
@[simp] theorem State.sendUnit_rst (s : State) (v : Byte) : (s.sendUnit v).rst = s.rst := rfl
@[simp] theorem State.sendUnit_phyData (s : State) (v : Byte) : (s.sendUnit v).phyData = v := rfl
@[simp] theorem State.sendUnit_phySend (s : State) (v : Byte) : (s.sendUnit v).phySend = true := rfl
@[simp] theorem State.sendUnit_line (s : State) (v : Byte) : (s.sendUnit v).line = s.line ++ [v] := rfl
@[simp] theorem State.sendUnit_ret (s : State) (v : Byte) : (s.sendUnit v).ret = s.ret := rfl
@[simp] theorem State.sendUnit_turns (s : State) (v : Byte) : (s.sendUnit v).turns = s.turns := rfl
@[simp] theorem State.sendUnit_draws (s : State) (v : Byte) : (s.sendUnit v).draws = s.draws := rfl
@[simp] theorem State.sendUnit_issue (s : State) (v : Byte) : (s.sendUnit v).issue = s.issue := rfl

/-! ### takeTickInterrupt -/

@[simp] theorem State.takeTickInterrupt_acc32 (s : State) : s.takeTickInterrupt.acc32 = s.acc32 := rfl
@[simp] theorem State.takeTickInterrupt_acc8 (s : State) : s.takeTickInterrupt.acc8 = s.acc8 := rfl
@[simp] theorem State.takeTickInterrupt_sr (s : State) : s.takeTickInterrupt.sr = s.sr := rfl
@[simp] theorem State.takeTickInterrupt_cw (s : State) : s.takeTickInterrupt.cw = s.cw := rfl
@[simp] theorem State.takeTickInterrupt_ident (s : State) : s.takeTickInterrupt.ident = s.ident := rfl
@[simp] theorem State.takeTickInterrupt_now (s : State) : s.takeTickInterrupt.now = s.now := rfl
@[simp] theorem State.takeTickInterrupt_jit (s : State) : s.takeTickInterrupt.jit = s.jit := rfl
@[simp] theorem State.takeTickInterrupt_deadline (s : State) : s.takeTickInterrupt.deadline = s.deadline := rfl
@[simp] theorem State.takeTickInterrupt_eval (s : State) : s.takeTickInterrupt.eval = s.eval := rfl
@[simp] theorem State.takeTickInterrupt_epoch (s : State) : s.takeTickInterrupt.epoch = s.epoch + 1 := rfl
@[simp] theorem State.takeTickInterrupt_irqMask (s : State) : s.takeTickInterrupt.irqMask = s.irqMask := rfl
@[simp] theorem State.takeTickInterrupt_ovfPending (s : State) : s.takeTickInterrupt.ovfPending = false := rfl
@[simp] theorem State.takeTickInterrupt_cyc (s : State) : s.takeTickInterrupt.cyc = s.cyc := rfl
@[simp] theorem State.takeTickInterrupt_sel (s : State) : s.takeTickInterrupt.sel = s.sel := rfl
@[simp] theorem State.takeTickInterrupt_nxtSync (s : State) : s.takeTickInterrupt.nxtSync = s.nxtSync := rfl
@[simp] theorem State.takeTickInterrupt_led (s : State) : s.takeTickInterrupt.led = s.led := rfl
@[simp] theorem State.takeTickInterrupt_st (s : State) : s.takeTickInterrupt.st = s.st := rfl
@[simp] theorem State.takeTickInterrupt_idx (s : State) : s.takeTickInterrupt.idx = s.idx := rfl
@[simp] theorem State.takeTickInterrupt_mem (s : State) : s.takeTickInterrupt.mem = s.mem := rfl
@[simp] theorem State.takeTickInterrupt_pre (s : State) : s.takeTickInterrupt.pre = s.pre := rfl
@[simp] theorem State.takeTickInterrupt_uid (s : State) : s.takeTickInterrupt.uid = s.uid := rfl
@[simp] theorem State.takeTickInterrupt_tickCnt (s : State) : s.takeTickInterrupt.tickCnt = s.tickCnt := rfl
@[simp] theorem State.takeTickInterrupt_jitterIn (s : State) : s.takeTickInterrupt.jitterIn = s.jitterIn := rfl
@[simp] theorem State.takeTickInterrupt_phyReady (s : State) : s.takeTickInterrupt.phyReady = s.phyReady := rfl
@[simp] theorem State.takeTickInterrupt_phyBusy (s : State) : s.takeTickInterrupt.phyBusy = s.phyBusy := rfl
@[simp] theorem State.takeTickInterrupt_rst (s : State) : s.takeTickInterrupt.rst = s.rst := rfl
@[simp] theorem State.takeTickInterrupt_phyData (s : State) : s.takeTickInterrupt.phyData = s.phyData := rfl
@[simp] theorem State.takeTickInterrupt_phySend (s : State) : s.takeTickInterrupt.phySend = s.phySend := rfl
@[simp] theorem State.takeTickInterrupt_line (s : State) : s.takeTickInterrupt.line = s.line := rfl
@[simp] theorem State.takeTickInterrupt_ret (s : State) : s.takeTickInterrupt.ret = s.ret := rfl
@[simp] theorem State.takeTickInterrupt_turns (s : State) : s.takeTickInterrupt.turns = s.turns := rfl
@[simp] theorem State.takeTickInterrupt_draws (s : State) : s.takeTickInterrupt.draws = s.draws := rfl
@[simp] theorem State.takeTickInterrupt_issue (s : State) : s.takeTickInterrupt.issue = s.issue := rfl

end Sys2Proof.Machine
end

