-- ==== Sys2Proof/Laws/Ops.lean ====
section
/-! SUPPORT. What the shared operations can do: one lemma each for loops, and for reads and writes of BUF. -/

namespace Sys2Proof.Machine

/-! ### Loops -/

@[simp] theorem forUp_zero {α : Type} (f : Fin 0 → α → α) (a : α) : forUp 0 f a = a := rfl

theorem forUp_succ {α : Type} (n : Nat) (f : Fin (n + 1) → α → α) (a : α) :
    forUp (n + 1) f a = f (Fin.last n) (forUp n (fun k => f k.castSucc) a) := rfl

/-- What holds before the loop and is carried by each of its passes holds after it. -/
theorem forUp_induct {α : Type} (P : Nat → α → Prop) :
    (n : Nat) → (f : Fin n → α → α) → (a : α) → P 0 a →
    (∀ (k : Nat) (h : k < n) (x : α), P k x → P (k + 1) (f ⟨k, h⟩ x)) → P n (forUp n f a)
  | 0, _, _, h0, _ => h0
  | n + 1, f, a, h0, hs =>
    hs n (Nat.lt_succ_self n) _
      (forUp_induct P n (fun k => f k.castSucc) a h0 fun k h x hx => hs k (Nat.lt_succ_of_lt h) x hx)

/-- A change that each pass lets through, the loop lets through. -/
theorem forUp_comm {α β : Type} (g : α → β) :
    (n : Nat) → (f : Fin n → α → α) → (f' : Fin n → β → β) → (∀ k x, f' k (g x) = g (f k x)) → (a : α) →
    forUp n f' (g a) = g (forUp n f a)
  | 0, _, _, _, _ => rfl
  | n + 1, f, f', h, a => by
    rw [forUp_succ, forUp_succ,
      forUp_comm g n (fun k => f k.castSucc) (fun k => f' k.castSucc) (fun k x => h _ x) a, h]

/-! ### Memory -/

theorem cellAt_cellSet_same (i : Nat) (v : Byte) (l : List Host.Cell) : cellAt i (cellSet i v l) = some v := by
  induction l with
  | nil => simp [cellSet, cellAt]
  | cons c rest ih =>
    obtain ⟨j, u⟩ := c
    unfold cellSet
    split
    · simp [cellAt]
    · split
      · simp [cellAt]
      · next hne => simp [cellAt, hne, ih]

theorem cellAt_cellSet_other {i j : Nat} (h : j ≠ i) (v : Byte) (l : List Host.Cell) :
    cellAt j (cellSet i v l) = cellAt j l := by
  induction l with
  | nil => simp [cellSet, cellAt, h]
  | cons c rest ih =>
    obtain ⟨k, u⟩ := c
    unfold cellSet
    split
    · simp [cellAt, h]
    · split
      · next heq => subst heq; simp [cellAt, h]
      · simp [cellAt, ih]

theorem cellsWf_cellSet {lo i : Nat} (v : Byte) (l : List Host.Cell) (hlo : lo ≤ i) (hi : i < 104)
    (h : cellsWf lo l = true) : cellsWf lo (cellSet i v l) = true := by
  induction l generalizing lo with
  | nil => simp [cellSet, cellsWf, hlo, hi]
  | cons c rest ih =>
    obtain ⟨j, u⟩ := c
    simp only [cellsWf, Bool.and_eq_true, decide_eq_true_eq] at h
    obtain ⟨⟨hj, hj'⟩, hr⟩ := h
    unfold cellSet
    split
    · next hlt => simp [cellsWf, hlo, hi, hj', hr]; omega
    · split
      · next heq => subst heq; simp [cellsWf, hlo, hi, hr]
      · next hnl hne => simp [cellsWf, hj, hj', ih (lo := j + 1) (by omega) hr]

/-- A read after a write to the same place gives the value written. -/
@[simp] theorem Memory.byte?_write_same (m : Memory) (b : BufSel) (i : Fin 104) (v : Byte) :
    (m.write b i v).byte? b i.val = some v := by
  cases b <;> exact cellAt_cellSet_same _ _ _

/-- A write leaves every other place alone. -/
theorem Memory.byte?_write_other (m : Memory) {b c : BufSel} {i : Fin 104} {j : Nat} (v : Byte)
    (h : c ≠ b ∨ j ≠ i.val) : (m.write b i v).byte? c j = m.byte? c j := by
  cases b <;> cases c
  · exact cellAt_cellSet_other (by simpa using h) _ _
  · rfl
  · rfl
  · exact cellAt_cellSet_other (by simpa using h) _ _

/-- A read after a write, both cases at once. -/
theorem Memory.byte?_write (m : Memory) (b c : BufSel) (i : Fin 104) (j : Nat) (v : Byte) :
    (m.write b i v).byte? c j = if c = b ∧ j = i.val then some v else m.byte? c j := by
  split
  · next h => obtain ⟨rfl, rfl⟩ := h; exact m.byte?_write_same _ _ _
  · next h => exact m.byte?_write_other v (by tauto)

/-- A write keeps the canonical form. -/
theorem Memory.wf_write (m : Memory) (b : BufSel) (i : Fin 104) (v : Byte) (h : m.wf = true) :
    (m.write b i v).wf = true := by
  simp only [Memory.wf, Bool.and_eq_true] at h ⊢
  cases b
  · exact ⟨cellsWf_cellSet v _ (Nat.zero_le _) i.isLt h.1, h.2⟩
  · exact ⟨h.1, cellsWf_cellSet v _ (Nat.zero_le _) i.isLt h.2⟩

/-- Reset's memory has the canonical form. -/
theorem reset_mem_wf : State.reset.mem.wf = true := rfl

/-- A successful read is of an offset that exists and holds that byte. -/
theorem State.memRead_ok {s : State} {b : BufSel} {i : Nat} {v : Byte} :
    s.memRead b i = .ok v ↔ i < 104 ∧ s.mem.byte? b i = some v := by
  unfold State.memRead
  split
  · next h => split <;> simp_all
  · next h => simp [h]

/-- All a read can answer. -/
theorem State.memRead_cases (s : State) (b : BufSel) (i : Nat) :
    (∃ v, i < 104 ∧ s.mem.byte? b i = some v ∧ s.memRead b i = .ok v) ∨
    (i < 104 ∧ s.mem.byte? b i = none ∧ s.memRead b i = .error (.unwrittenByte b i)) ∨
    (104 ≤ i ∧ s.memRead b i = .error (.noSuchOffset b i)) := by
  unfold State.memRead
  by_cases h : i < 104
  · cases s.mem.byte? b i <;> simp [h]
  · simp [h]; omega

/-! ### Guards, interrupt, turns -/

@[simp] theorem whenEnabled_true (s : State) (f : State → Host.Outcome State Fault Refusal) :
    whenEnabled true s f = f s := rfl

@[simp] theorem whenEnabled_false (s : State) (f : State → Host.Outcome State Fault Refusal) :
    whenEnabled false s f = .next s := rfl

theorem drained_succ (x : BitVec 7) (h : x.toNat < 104) : drained (x + 1) = decide (x.toNat = 103) := by
  unfold drained
  rw [Bool.eq_iff_iff, beq_iff_eq, decide_eq_true_eq]
  constructor
  · intro he
    have := congrArg BitVec.toNat he
    rw [BitVec.toNat_add] at this
    simp at this; omega
  · intro he
    apply BitVec.eq_of_toNat_eq
    rw [BitVec.toNat_add, he]; rfl

/-- The counter overflows from all ones, and only from there (44_scheduler.md R138). -/
theorem tick_succ_eq_zero (x : Half) : x + 1 = 0 ↔ x = 0xFFFF := by
  have key : x + 1#16 = 0#16 ↔ x = 0xFFFF#16 := by
    constructor
    · intro h
      have := congrArg BitVec.toNat h
      rw [BitVec.toNat_add] at this
      apply BitVec.eq_of_toNat_eq
      have := x.isLt
      simp at *; omega
    · rintro rfl; rfl
  exact key

/-- The deadline as a number (R135). -/
theorem deadlineOf_toNat (t : Half) (j : BitVec 4) :
    (deadlineOf t j).toNat = (t.toNat + 10 + j.toNat) % 65536 := by
  unfold deadlineOf gapBase
  rw [BitVec.toNat_add, BitVec.toNat_add, BitVec.toNat_setWidth]
  have := j.isLt
  have := t.isLt
  have h10 : BitVec.toNat (10 : Half) = 10 := rfl
  rw [h10]
  omega

/-- All that raising the tick interrupt can do: latch the request, or count it. -/
theorem State.raiseTickInterrupt_cases (s : State) :
    (s.irqMask = true ∧ s.raiseTickInterrupt = { s with ovfPending := true }) ∨
    (s.irqMask = false ∧ s.raiseTickInterrupt = { s with epoch := s.epoch + 1, ovfPending := false }) := by
  unfold State.raiseTickInterrupt State.takeTickInterrupt
  cases s.irqMask <;> simp

/-- All that the counter's advance can do: count, and at the wrap latch or count the epoch too. -/
theorem State.advanceTick_cases (s : State) :
    (s.tickCnt + 1 ≠ 0 ∧ s.advanceTick = { s with tickCnt := s.tickCnt + 1 }) ∨
    (s.tickCnt + 1 = 0 ∧ s.irqMask = true ∧ s.advanceTick = { s with tickCnt := 0, ovfPending := true }) ∨
    (s.tickCnt + 1 = 0 ∧ s.irqMask = false ∧
      s.advanceTick = { s with tickCnt := 0, epoch := s.epoch + 1, ovfPending := false }) := by
  unfold State.advanceTick
  by_cases h : s.tickCnt + 1 = 0
  · right
    simp only [h, tickWrapped, beq_self_eq_true, if_true, true_and]
    exact State.raiseTickInterrupt_cases { s with tickCnt := 0 }
  · left
    exact ⟨h, if_neg (by simpa only [tickWrapped, beq_iff_eq] using h)⟩

end Sys2Proof.Machine
end

