-- ==== Sys2Proof/Laws/Checksum.lean ====
section
/-! SUPPORT. The checksum operations as single record updates, and their loops as the reference forms of Safety.lean. -/

namespace Sys2Proof.Machine

theorem bitAt_getLsbD_zero {n : Nat} (v : BitVec n) (i : Nat) : (bitAt v i).getLsbD 0 = v.getLsbD i := by
  unfold bitAt; cases v.getLsbD i <;> rfl

theorem bitAt_toNat {n : Nat} (v : BitVec n) (i : Nat) : (bitAt v i).toNat = (v.getLsbD i).toNat := by
  unfold bitAt; cases v.getLsbD i <;> rfl

/-- One bit step of CRC-32 is one shift with the input bit in the low bit. -/
theorem crc32Step_eq (acc : BitVec 32) (d : Bit) : crc32Step acc d = refCrc32Shift (acc ^^^ d.setWidth 32) := rfl

/-- One shift of CRC-32, bit by bit. -/
theorem refCrc32Shift_getLsbD (x : BitVec 32) (j : Nat) :
    (refCrc32Shift x).getLsbD j = (x.getLsbD (j + 1) ^^ (x.getLsbD 0 && (0xEDB88320#32).getLsbD j)) := by
  unfold refCrc32Shift
  split
  · next h => rw [h, Bool.true_and, BitVec.getLsbD_xor, BitVec.getLsbD_ushiftRight, Nat.add_comm]; rfl
  · next h =>
    rw [Bool.not_eq_true] at h
    rw [h, Bool.false_and, Bool.xor_false, BitVec.getLsbD_ushiftRight, Nat.add_comm]

/-- What the shift makes of a bit that is only in high places: it moves down by one. -/
theorem refCrc32Shift_xor (x y : BitVec 32) (b : Byte) (d : Bit)
    (hd : d.getLsbD 0 = b.getLsbD 0) (hy : y = b.setWidth 32) :
    refCrc32Shift (x ^^^ d.setWidth 32) ^^^ (b >>> 1).setWidth 32 = refCrc32Shift (x ^^^ y) := by
  subst hy
  apply BitVec.eq_of_getLsbD_eq
  intro j hj
  have h1 : d.getLsbD (j + 1) = false := BitVec.getLsbD_of_ge d (j + 1) (by omega)
  have hb : decide (j + 1 < 32) = false → b.getLsbD (j + 1) = false := by
    intro h; exact BitVec.getLsbD_of_ge b (j + 1) (by have := of_decide_eq_false h; omega)
  rw [BitVec.getLsbD_xor, refCrc32Shift_getLsbD, refCrc32Shift_getLsbD]
  simp only [BitVec.getLsbD_xor, BitVec.getLsbD_setWidth, BitVec.getLsbD_ushiftRight, h1, hd, hj, Nat.add_comm 1 j,
    decide_true, Bool.true_and, Bool.and_false, Bool.xor_false]
  cases h32 : decide (j + 1 < 32)
  · rw [hb h32]; simp
  · simp only [Bool.true_and]
    cases x.getLsbD (j + 1) <;> cases b.getLsbD (j + 1) <;> simp

theorem crc32Loop_repeat (acc : BitVec 32) (b : Byte) : (n : Nat) →
    forUp n (fun k a => crc32Step a (bitAt b k.val)) acc ^^^ (b >>> n).setWidth 32 =
      Nat.repeat refCrc32Shift n (acc ^^^ b.setWidth 32)
  | 0 => by simp [Nat.repeat]
  | n + 1 => by
    rw [Nat.repeat, ← crc32Loop_repeat acc b n, forUp_succ, crc32Step_eq, BitVec.shiftRight_add]
    exact refCrc32Shift_xor _ _ (b >>> n) _
      (by rw [bitAt_getLsbD_zero, BitVec.getLsbD_ushiftRight]; rfl) rfl

/-- R82's two forms agree: bit by bit, and the whole byte in at once. -/
theorem crc32Loop_eq (acc : BitVec 32) (b : Byte) :
    forUp 8 (fun k a => crc32Step a (bitAt b k.val)) acc = refCrc32Byte acc b := by
  have h := crc32Loop_repeat acc b 8
  rwa [BitVec.ushiftRight_eq_zero (by omega), BitVec.setWidth_zero, BitVec.xor_zero] at h

theorem crc32Byte_loop (s : State) (b : Byte) : (n : Nat) →
    forUp n (fun k t => t.crc32Bit (bitAt b k.val)) s =
      { s with acc32 := forUp n (fun k a => crc32Step a (bitAt b k.val)) s.acc32 }
  | 0 => rfl
  | n + 1 => by rw [forUp_succ]; simp only [Fin.val_castSucc]; rw [crc32Byte_loop s b n]; rfl

/-- CRC32.BYTE changes `acc32` alone. -/
theorem State.crc32Byte_eq (s : State) (b : Byte) :
    s.crc32Byte b = { s with acc32 := refCrc32Byte s.acc32 b } := by
  rw [← crc32Loop_eq]; exact crc32Byte_loop s b 8

theorem crc8Loop_eq (acc : BitVec 8) : (n : Nat) →
    forUp n (fun _ a => crc8Shift a) acc = Nat.repeat refCrc8Shift n acc
  | 0 => rfl
  | n + 1 => by rw [forUp_succ, crc8Loop_eq acc n]; rfl

/-- CRC8.BYTE changes `acc8` alone. -/
theorem State.crc8Byte_eq (s : State) (b : Byte) : s.crc8Byte b = { s with acc8 := refCrc8Byte s.acc8 b } := by
  unfold State.crc8Byte refCrc8Byte; rw [crc8Loop_eq]

/-- The complement as the difference from all ones (R7). -/
theorem not_eq_allOnes_sub {n : Nat} (v : BitVec n) : ~~~v = BitVec.allOnes n - v := by
  apply BitVec.eq_of_toNat_eq
  rw [BitVec.toNat_not, BitVec.toNat_sub, BitVec.toNat_allOnes]
  have := v.isLt
  rw [show 2 ^ n - v.toNat + (2 ^ n - 1) = (2 ^ n - 1 - v.toNat) + 2 ^ n by omega, Nat.add_mod_right,
    Nat.mod_eq_of_lt (by omega)]

end Sys2Proof.Machine
end

