-- ==== Sys2Proof/Laws/Encoder.lean ====
section
/-! SUPPORT. The encoder's register as a window on the inserted bits, its parities as exclusive ors over the taps, and
all that ENC.WORD does. -/

namespace Sys2Proof.Machine

theorem encShift_getLsbD_zero (sr : BitVec 9) (d : Bit) : (encShift sr d).getLsbD 0 = d.getLsbD 0 := by
  unfold encShift
  rw [BitVec.getLsbD_or, BitVec.getLsbD_shiftLeft, BitVec.getLsbD_setWidth]; simp

theorem encShift_getLsbD_succ (sr : BitVec 9) (d : Bit) {j : Nat} (hj : j < 8) :
    (encShift sr d).getLsbD (j + 1) = sr.getLsbD j := by
  unfold encShift
  rw [BitVec.getLsbD_or, BitVec.getLsbD_shiftLeft, BitVec.getLsbD_setWidth,
    BitVec.getLsbD_of_ge d (j + 1) (by omega)]
  simp [show j + 1 < 9 by omega]

theorem encShift_toNat (sr : BitVec 9) (d : Bit) :
    (encShift sr d).toNat = (2 * sr.toNat + d.toNat) % 512 := by
  revert sr d; decide +kernel

/-- The POLYA parity, as an exclusive or over the taps (R105). -/
theorem parity_polyA (v : BitVec 9) :
    parity (v &&& polyA) = tapsA.foldl (fun p k => p ^^ v.getLsbD k) false := by
  revert v; decide +kernel

/-- The POLYB parity, as an exclusive or over the taps (R105). -/
theorem parity_polyB (v : BitVec 9) :
    parity (v &&& polyB) = tapsB.foldl (fun p k => p ^^ v.getLsbD k) false := by
  revert v; decide +kernel

theorem sym_eq (p : Bool) : sym p = bitByte p := by cases p <;> rfl

theorem symbolByte_eq (x : Symbol) : symbolByte x = bitByte (x == .pos) := by cases x <;> rfl

theorem symbolA_eq (v : BitVec 9) : symbolA v = bitByte (tapsA.foldl (fun p k => p ^^ v.getLsbD k) false) := by
  unfold symbolA; rw [sym_eq, parity_polyA]

theorem symbolB_eq (v : BitVec 9) : symbolB v = bitByte (tapsB.foldl (fun p k => p ^^ v.getLsbD k) false) := by
  unfold symbolB; rw [sym_eq, parity_polyB]

/-- The encoder's register after n steps of a codeword, from a cleared register. -/
def encRegister (w : Codeword) : Nat → BitVec 9
  | 0 => 0
  | n + 1 => encShift (encRegister w n) (stepBit w n)

theorem stepBit_getLsbD (w : Codeword) (k : Nat) : (stepBit w k).getLsbD 0 = insertedBit w k := by
  unfold stepBit insertedBit
  split
  · exact bitAt_getLsbD_zero _ _
  · rfl

/-- Bit j of the register is the bit inserted j steps before the last (10_state.md R16). -/
theorem encRegister_getLsbD (w : Codeword) (n : Nat) {j : Nat} (hj : j < 9) :
    (encRegister w n).getLsbD j = (decide (j < n) && insertedBit w (n - 1 - j)) := by
  induction n generalizing j with
  | zero => simp [encRegister]
  | succ n ih =>
    cases j with
    | zero => rw [encRegister, encShift_getLsbD_zero, stepBit_getLsbD]; simp
    | succ j =>
      rw [encRegister, encShift_getLsbD_succ _ _ (by omega), ih (by omega)]
      simp [show n - 1 - j = n - (j + 1) by omega]

/-- The exclusive or over taps of the register after step k is the one over the inserted bits. -/
theorem encRegister_taps (w : Codeword) (k : Nat) (taps : List Nat) (h : ∀ t ∈ taps, t < 9) (b : Bool) :
    taps.foldl (fun p t => p ^^ (encRegister w (k + 1)).getLsbD t) b =
      taps.foldl (fun p t => p ^^ (decide (t ≤ k) && insertedBit w (k - t))) b := by
  induction taps generalizing b with
  | nil => rfl
  | cons t ts ih =>
    simp only [List.foldl_cons]
    rw [encRegister_getLsbD w (k + 1) (h t (by simp)), ih (fun u hu => h u (by simp [hu]))]
    simp

theorem symbolA_encRegister (w : Codeword) (k : Nat) :
    symbolA (encRegister w (k + 1)) = codeSymbol w (2 * k) := by
  rw [symbolA_eq, encRegister_taps w k tapsA (by decide) false]
  simp [codeSymbol, tapParity]

theorem symbolB_encRegister (w : Codeword) (k : Nat) :
    symbolB (encRegister w (k + 1)) = codeSymbol w (2 * k + 1) := by
  rw [symbolB_eq, encRegister_taps w k tapsB (by decide) false]
  simp [codeSymbol, tapParity, show (2 * k + 1) / 2 = k by omega]

/-- After all 40 steps only the last data bit is left, in bit 8 (R103). -/
theorem encRegister_drained (w : Codeword) :
    encRegister w 40 = if w.toNat % 2 = 0 then 0x000 else 0x100 := by
  apply BitVec.eq_of_getLsbD_eq
  intro j hj
  rw [encRegister_getLsbD w 40 hj]
  have h0 : w.getLsbD 0 = decide (w.toNat % 2 = 1) := by simp [BitVec.getLsbD, Nat.testBit_zero]
  by_cases h8 : j = 8
  · subst h8
    simp only [insertedBit, h0]
    rcases Nat.mod_two_eq_zero_or_one w.toNat with h | h <;> simp [h]
  · have : insertedBit w (40 - 1 - j) = false := by simp [insertedBit]; omega
    rw [this, Bool.and_false]
    have hj8 : j < 8 := by omega
    split
    · simp
    · interval_cases j <;> rfl

/-- The memory after n steps of ENC.WORD: the first 2n symbols stand, the rest is as it was. -/
structure Emitted (m m' : Memory) (b : BufSel) (w : Codeword) (n : Nat) : Prop where
  stored : ∀ j, j < 2 * n → m'.byte? b (20 + j) = some (codeSymbol w j)
  kept : ∀ c i, c ≠ b ∨ i < 20 ∨ 20 + 2 * n ≤ i → m'.byte? c i = m.byte? c i
  wf : m.wf = true → m'.wf = true

theorem State.encStep_eq (s : State) (b : BufSel) (k : Fin 40) (d : Bit) :
    s.encStep b k d = { s with
      sr := encShift s.sr d,
      mem := (s.mem.write b ⟨20 + 2 * k.val, by omega⟩ (symbolA (encShift s.sr d))).write b
        ⟨21 + 2 * k.val, by omega⟩ (symbolB (encShift s.sr d)) } := rfl

/-- All that ENC.WORD does. -/
theorem State.encWord_spec (s : State) (b : BufSel) (w : Codeword) :
    s.encWord b w = { s with sr := encRegister w 40, mem := (s.encWord b w).mem } ∧
      Emitted s.mem (s.encWord b w).mem b w 40 := by
  refine forUp_induct (fun n (t : State) => t = { s with sr := encRegister w n, mem := t.mem } ∧
    Emitted s.mem t.mem b w n) 40 _ s.encClr ⟨rfl, ?_, ?_, id⟩ ?_
  · intro j hj; omega
  · intros; rfl
  · rintro k hk t ⟨ht, hm⟩
    have hsr : t.sr = encRegister w k := by rw [ht]
    rw [State.encStep_eq]
    refine ⟨?_, ?_, ?_, ?_⟩
    · rw [ht]; rfl
    · intro j hj
      simp only [hsr, Memory.byte?_write]
      rw [show encShift (encRegister w k) (stepBit w k) = encRegister w (k + 1) from rfl]
      rw [symbolA_encRegister, symbolB_encRegister]
      by_cases h1 : j = 2 * k + 1
      · subst h1; rw [if_pos ⟨trivial, by omega⟩]
      · rw [if_neg (by omega)]
        by_cases h0 : j = 2 * k
        · subst h0; rw [if_pos ⟨trivial, rfl⟩]
        · rw [if_neg (by omega)]; exact hm.stored j (by omega)
    · intro c i hci
      simp only [Memory.byte?_write]
      rw [if_neg (by rintro ⟨rfl, h⟩; simp at hci; omega), if_neg (by rintro ⟨rfl, h⟩; simp at hci; omega)]
      exact hm.kept c i (by rcases hci with h | h | h <;> [exact .inl h; exact .inr (.inl h); exact .inr (.inr (by omega))])
    · intro h
      exact Memory.wf_write _ _ _ _ (Memory.wf_write _ _ _ _ (hm.wf h))

/-- Every code symbol is one of the two symbol bytes (30_encoding.md R72 a). -/
theorem codeSymbol_cases (w : Codeword) (j : Nat) : codeSymbol w j = 0xAA ∨ codeSymbol w j = 0x55 := by
  unfold codeSymbol bitByte; split <;> simp

end Sys2Proof.Machine
end

