-- ==== Sys2Proof/Laws/Memory.lean ====
section
/-! SUPPORT. Memories in canonical form are equal exactly when every byte reads the same. -/

namespace Sys2Proof.Machine

theorem cellAt_below {lo i : Nat} (l : List Host.Cell) (h : cellsWf lo l = true) (hi : i < lo) :
    cellAt i l = none := by
  induction l generalizing lo with
  | nil => rfl
  | cons c rest ih =>
    obtain ⟨j, u⟩ := c
    simp only [cellsWf, Bool.and_eq_true, decide_eq_true_eq] at h
    rw [cellAt, if_neg (by omega)]
    exact ih h.2 (by omega)

theorem cells_ext {lo : Nat} (l l' : List Host.Cell) (h : cellsWf lo l = true) (h' : cellsWf lo l' = true)
    (he : ∀ i, cellAt i l = cellAt i l') : l = l' := by
  induction l generalizing lo l' with
  | nil =>
    cases l' with
    | nil => rfl
    | cons c' rest' => have := he c'.1; simp [cellAt] at this
  | cons c rest ih =>
    cases l' with
    | nil => have := he c.1; simp [cellAt] at this
    | cons c' rest' =>
      obtain ⟨j, u⟩ := c
      obtain ⟨j', u'⟩ := c'
      have hw := h
      have hw' := h'
      simp only [cellsWf, Bool.and_eq_true, decide_eq_true_eq] at h h'
      have hj : j = j' := by
        rcases Nat.lt_trichotomy j j' with hlt | heq | hgt
        · have := he j
          rw [cellAt, if_pos rfl, cellAt, if_neg (by omega), cellAt_below rest' h'.2 (by omega)] at this
          cases this
        · exact heq
        · have := he j'
          rw [cellAt, if_neg (by omega), cellAt_below rest h.2 (by omega), cellAt, if_pos rfl] at this
          cases this
      subst hj
      have hu : u = u' := by have := he j; simpa [cellAt] using this
      subst hu
      congr 1
      refine ih rest' h.2 h'.2 fun i => ?_
      by_cases hi : i = j
      · rw [cellAt_below rest h.2 (by omega), cellAt_below rest' h'.2 (by omega)]
      · have := he i; rwa [cellAt, if_neg hi, cellAt, if_neg hi] at this

/-- Equal memories are equal data. -/
theorem Memory.ext_of_wf {m m' : Memory} (h : m.wf = true) (h' : m'.wf = true)
    (he : ∀ b i, m.byte? b i = m'.byte? b i) : m = m' := by
  obtain ⟨p, q⟩ := m
  obtain ⟨p', q'⟩ := m'
  simp only [Memory.wf, Bool.and_eq_true] at h h'
  rw [cells_ext p p' h.1 h'.1 (he .id), cells_ext q q' h.2 h'.2 (he .ts)]

/-- An offset that does not exist holds nothing in a memory in canonical form. -/
theorem Memory.byte?_high {m : Memory} (h : m.wf = true) (b : BufSel) {i : Nat} (hi : 104 ≤ i) :
    m.byte? b i = none := by
  have key : ∀ (lo : Nat) (l : List Host.Cell), cellsWf lo l = true → cellAt i l = none := by
    intro lo l
    induction l generalizing lo with
    | nil => intro _; rfl
    | cons c rest ih =>
      obtain ⟨j, u⟩ := c
      intro hl
      simp only [cellsWf, Bool.and_eq_true, decide_eq_true_eq] at hl
      rw [cellAt, if_neg (by omega)]
      exact ih _ hl.2
  simp only [Memory.wf, Bool.and_eq_true] at h
  cases b
  · exact key 0 _ h.1
  · exact key 0 _ h.2

end Sys2Proof.Machine
end

