-- ==== Sys2Proof/Laws/Framer.lean ====
section
/-! SUPPORT. All that FRM.CONST and FRM.CODE do. -/

namespace Sys2Proof.Machine

/-- A block of n bytes from offset lo holds f, the rest is as it was. -/
structure Filled (m m' : Memory) (b : BufSel) (lo n : Nat) (f : Nat → Byte) : Prop where
  stored : ∀ k, k < n → m'.byte? b (lo + k) = some (f k)
  kept : ∀ c i, c ≠ b ∨ i < lo ∨ lo + n ≤ i → m'.byte? c i = m.byte? c i
  wf : m.wf = true → m'.wf = true

/-- All that a loop of writes to rising offsets does, where the values depend on PRE alone. -/
theorem fill_spec (s : State) (b : BufSel) (lo n : Nat) (off : Fin n → Fin 104)
    (hoff : ∀ k, (off k).val = lo + k.val) (g : Fin n → State → Byte) (f : Nat → Byte)
    (hg : ∀ k t, t.pre = s.pre → g k t = f k.val) :
    forUp n (fun k t => t.memWrite b (off k) (g k t)) s =
        { s with mem := (forUp n (fun k t => t.memWrite b (off k) (g k t)) s).mem } ∧
      Filled s.mem (forUp n (fun k t => t.memWrite b (off k) (g k t)) s).mem b lo n f := by
  refine forUp_induct (fun i (t : State) => t = { s with mem := t.mem } ∧ Filled s.mem t.mem b lo i f) n _ s
    ⟨rfl, ?_, ?_, id⟩ ?_
  · intro k hk; omega
  · intros; rfl
  · rintro k hk t ⟨ht, hm⟩
    have hv : g ⟨k, hk⟩ t = f k := hg ⟨k, hk⟩ t (by rw [ht])
    refine ⟨?_, ?_, ?_, ?_⟩
    · unfold State.memWrite; rw [ht]
    · intro j hj
      rw [State.memWrite_mem, Memory.byte?_write, hoff, hv]
      by_cases h : j = k
      · subst h; rw [if_pos ⟨rfl, rfl⟩]
      · rw [if_neg (by simp; omega)]; exact hm.stored j (by omega)
    · intro c i hci
      rw [State.memWrite_mem, Memory.byte?_write, hoff,
        if_neg (by rintro ⟨rfl, h⟩; have h' : i = lo + k := h; simp at hci; omega)]
      exact hm.kept c i (by rcases hci with h | h | h <;> [exact .inl h; exact .inr (.inl h); exact .inr (.inr (by omega))])
    · intro h; exact Memory.wf_write _ _ _ _ (hm.wf h)

/-- The memory after FRM.CONST. -/
structure Framed (m m' : Memory) (pre : Vector Symbol 16) (b : BufSel) : Prop where
  const : ConstFramed m' pre b
  kept : ∀ c i, c ≠ b ∨ 20 ≤ i ∧ i < 100 ∨ 104 ≤ i → m'.byte? c i = m.byte? c i
  wf : m.wf = true → m'.wf = true

/-- All that FRM.CONST does. -/
theorem State.frmConst_spec (s : State) (b : BufSel) :
    s.frmConst b = { s with mem := (s.frmConst b).mem } ∧ Framed s.mem (s.frmConst b).mem s.pre b := by
  obtain ⟨h1, f1⟩ := fill_spec s b 0 4 (fun i => ⟨i.val, by omega⟩) (by simp) (fun _ _ => symNeg)
    (fun _ => symNeg) (by simp)
  generalize ht1 : forUp 4 (fun (i : Fin 4) t => State.memWrite t b ⟨i.val, by omega⟩ symNeg) s = t1 at h1 f1
  have hp1 : t1.pre = s.pre := by rw [h1]
  obtain ⟨h2, f2⟩ := fill_spec t1 b 4 16 (fun k => ⟨4 + k.val, by omega⟩) (by simp) (fun k t => t.preByte k)
    (fun k => if h : k < 16 then symbolByte s.pre[k] else 0)
    (by intro k t ht; simp [State.preByte, ht, hp1])
  generalize ht2 : forUp 16 (fun (k : Fin 16) t => State.memWrite t b ⟨4 + k.val, by omega⟩ (t.preByte k)) t1 = t2
    at h2 f2
  obtain ⟨h3, f3⟩ := fill_spec t2 b 100 4 (fun i => ⟨100 + i.val, by omega⟩) (by simp) (fun _ _ => symNeg)
    (fun _ => symNeg) (by simp)
  have hdef : s.frmConst b = forUp 4 (fun (i : Fin 4) t => State.memWrite t b ⟨100 + i.val, by omega⟩ symNeg) t2 := by
    rw [← ht2, ← ht1]; rfl
  rw [← hdef] at h3 f3
  refine ⟨?_, ⟨?_, ?_, ?_⟩, ?_, ?_⟩
  · rw [h3, h2, h1]
  · intro i hi
    rw [f3.kept b i (.inr (.inl (by omega))), f2.kept b i (.inr (.inl (by omega)))]
    have := f1.stored i hi
    rwa [Nat.zero_add] at this
  · intro k
    rw [f3.kept b _ (.inr (.inl (by omega))), f2.stored k.val k.isLt]
    simp [symbolByte_eq, k.isLt]
  · intro i hi hi'
    have := f3.stored (i - 100) (by omega)
    rwa [show 100 + (i - 100) = i by omega] at this
  · intro c i h
    have h' : c ≠ b ∨ 20 ≤ i ∧ (i < 100 ∨ 104 ≤ i) := by rcases h with h | h | h <;> [exact .inl h; right; right] <;> omega
    rw [f3.kept c i (by rcases h' with h | h <;> [exact .inl h; right]; omega),
      f2.kept c i (by rcases h' with h | h <;> [exact .inl h; right]; omega),
      f1.kept c i (by rcases h' with h | h <;> [exact .inl h; right]; omega)]
  · intro h; exact f3.wf (f2.wf (f1.wf h))

/-- Constant regions survive whatever leaves offsets 0..19 and 100..103 alone (42_framer.md R112). -/
theorem ConstFramed.mono {m m' : Memory} {pre : Vector Symbol 16} {b : BufSel} (h : ConstFramed m pre b)
    (hk : ∀ i, i < 20 ∨ 100 ≤ i → m'.byte? b i = m.byte? b i) : ConstFramed m' pre b := by
  obtain ⟨h1, h2, h3⟩ := h
  refine ⟨fun i hi => ?_, fun k => ?_, fun i hi hi' => ?_⟩
  · rw [hk i (.inl (by omega))]; exact h1 i hi
  · rw [hk _ (.inl (by omega))]; exact h2 k
  · rw [hk i (.inr hi)]; exact h3 i hi hi'

/-- A codeword region survives whatever leaves offsets 20..99 alone. -/
theorem Coded.mono {m m' : Memory} {b : BufSel} {w : Codeword} (h : Coded m b w)
    (hk : ∀ i, 20 ≤ i ∧ i < 100 → m'.byte? b i = m.byte? b i) : Coded m' b w := by
  intro j hj; rw [hk _ (by omega)]; exact h j hj

theorem Emitted.coded {m m' : Memory} {b : BufSel} {w : Codeword} (h : Emitted m m' b w 40) : Coded m' b w :=
  fun j hj => h.stored j hj

/-- A framed buffer, read from offset 0 to 103, is the frame of its codeword (30_encoding.md R61, R68). -/
theorem frame_units {m : Memory} {pre : Vector Symbol 16} {b : BufSel} {w : Codeword} (hc : ConstFramed m pre b)
    (hd : Coded m b w) : (List.range 104).map (fun i => (m.byte? b i).getD 0) = frameOf pre w := by
  have hsplit : ∀ f : Nat → Byte, (List.range 104).map f =
      (List.range 4).map f ++ (List.range 16).map (fun k => f (4 + k)) ++ (List.range 80).map (fun j => f (20 + j)) ++
        (List.range 4).map (fun i => f (100 + i)) := fun _ => rfl
  obtain ⟨h1, h2, h3⟩ := hc
  rw [hsplit, frameOf]
  congr 1
  · congr 1
    · congr 1
      · have : ∀ i ∈ List.range 4, (m.byte? b i).getD 0 = 0xAA := fun i hi => by
          rw [h1 i (List.mem_range.mp hi)]; rfl
        rw [List.map_congr_left this]; rfl
      · refine List.ext_getElem (by simp) fun k hk _ => ?_
        have hk' : k < 16 := by simpa using hk
        have := h2 ⟨k, hk'⟩
        simp only [List.getElem_map, List.getElem_range]
        rw [this]; rfl
    · exact List.map_congr_left fun j hj => by rw [hd j (List.mem_range.mp hj)]; rfl
  · have : ∀ i ∈ List.range 4, (m.byte? b (100 + i)).getD 0 = 0xAA := fun i hi => by
      have := List.mem_range.mp hi
      rw [h3 _ (by omega) (by omega)]; rfl
    rw [List.map_congr_left this]; rfl

end Sys2Proof.Machine
end

