-- ==== Sys2Proof/Laws/Builder.lean ====
section
/-! SUPPORT. All that CW.MAKE, ID.BUILD and TS.BUILD do, in the reference forms of Safety.lean. -/

namespace Sys2Proof.Machine

/-- The codeword's assembly by shift and or is a concatenation (30_encoding.md R63). -/
theorem codewordOf_eq (p : Payload) (c : Byte) : codewordOf p c = p ++ c := by
  unfold codewordOf
  apply BitVec.eq_of_getLsbD_eq
  intro j hj
  rw [BitVec.getLsbD_or, BitVec.getLsbD_shiftLeft, BitVec.getLsbD_setWidth, BitVec.getLsbD_setWidth,
    BitVec.getLsbD_append]
  by_cases h : j < 8
  · simp [h, hj]
  · simp [h, hj, BitVec.getLsbD_of_ge c j (by omega)]; omega

/-- The time-sync payload's assembly is a concatenation (R65). -/
theorem tsPayload_eq (d e : Half) : tsPayload d e = refTsPayload d e := by
  unfold tsPayload refTsPayload
  apply BitVec.eq_of_getLsbD_eq
  intro j hj
  rw [BitVec.getLsbD_or, BitVec.getLsbD_or, BitVec.getLsbD_shiftLeft, BitVec.getLsbD_shiftLeft,
    BitVec.getLsbD_setWidth, BitVec.getLsbD_setWidth, BitVec.getLsbD_append, BitVec.getLsbD_append]
  by_cases h : j < 16
  · simp [h, show j < 20 by omega, hj]
  · rw [BitVec.getLsbD_of_ge d j (by omega)]
    by_cases h4 : j - 16 < 4
    · simp [h, h4, show j < 20 by omega, hj]; omega
    · rw [BitVec.getLsbD_of_ge (e.extractLsb' 0 4) (j - 16) (by omega)]
      simp [h, h4, show ¬ j < 20 by omega, hj]
      obtain ⟨k, rfl⟩ : ∃ k, j = 20 + k := ⟨j - 20, by omega⟩
      have : k < 4 := by omega
      interval_cases k <;> rfl

/-- All that CW.MAKE does. -/
theorem State.cwMake_eq (s : State) (p : Payload) :
    s.cwMake p = { s with
      acc8 := ~~~(refCrc8 [payloadHigh p, payloadMid p, payloadLow p]), cw := refCodeword p } := by
  unfold State.cwMake
  simp only [State.crc8Byte_eq, State.crc8Clr, State.crc8Result, codewordOf_eq, refCodeword, refCrc8, List.foldl,
    init8, payloadHigh, payloadMid, payloadLow, BitVec.not_not]

/-- The hash of ID.BUILD over the identifier's bytes in order. -/
theorem hash_loop (s : State) :
    forUp 12 (fun k u => State.crc32Byte u (u.uidByte k)) s.crc32Clr =
      { s with acc32 := s.uid.toList.foldl refCrc32Byte 0xFFFFFFFF } := by
  have h := forUp_induct (fun n (t : State) => t = { s with
      acc32 := (s.uid.toList.take n).foldl refCrc32Byte 0xFFFFFFFF }) 12
    (fun k u => State.crc32Byte u (u.uidByte k)) s.crc32Clr rfl (by
      rintro k hk t rfl
      have hl : k < s.uid.toList.length := by simp [hk]
      simp only [State.crc32Byte_eq, State.uidByte]
      rw [List.take_succ_eq_append_getElem hl, List.foldl_append]
      simp)
  rw [h, List.take_of_length_le (by simp)]

/-- The identity half of ID.BUILD. -/
theorem State.deriveIdent_eq (s : State) :
    s.deriveIdent = { s with
      acc32 := ~~~(refCrc32 s.uid.toList), ident := BitVec.ofNat 24 (refIdentity s.uid) } := by
  unfold State.deriveIdent
  simp only [hash_loop, State.crc32Result, identityOf, refIdentity, refCrc32, idMod, BitVec.not_not]

theorem refIdentity_le (u : Vector Byte 12) : refIdentity u ≤ 9999999 := by
  unfold refIdentity; omega

theorem refIdentity_toNat (u : Vector Byte 12) : (BitVec.ofNat 24 (refIdentity u)).toNat = refIdentity u := by
  rw [BitVec.toNat_ofNat]; exact Nat.mod_eq_of_lt (by have := refIdentity_le u; omega)

/-- All that ID.BUILD does. -/
theorem State.idBuild_spec (s : State) :
    let id : BitVec 24 := BitVec.ofNat 24 (refIdentity s.uid)
    s.idBuild = { s with
        acc32 := ~~~(refCrc32 s.uid.toList), ident := id,
        acc8 := ~~~(refCrc8 [payloadHigh id, payloadMid id, payloadLow id]), cw := refCodeword id,
        sr := encRegister (refCodeword id) 40, mem := s.idBuild.mem } ∧
      ConstFramed s.idBuild.mem s.pre .id ∧ Coded s.idBuild.mem .id (refCodeword id) ∧
      (∀ c i, c ≠ .id ∨ 104 ≤ i → s.idBuild.mem.byte? c i = s.mem.byte? c i) ∧
      (s.mem.wf = true → s.idBuild.mem.wf = true) := by
  intro id
  have hd := State.deriveIdent_eq s
  have hdef : s.idBuild = ((s.deriveIdent.cwMake s.deriveIdent.ident).frmConst .id).encWord .id
      ((s.deriveIdent.cwMake s.deriveIdent.ident).frmConst .id).cw := rfl
  rw [State.cwMake_eq, hd] at hdef
  simp only at hdef
  obtain ⟨hc, fc⟩ := State.frmConst_spec { s with
    acc32 := ~~~(refCrc32 s.uid.toList), ident := BitVec.ofNat 24 (refIdentity s.uid),
    acc8 := ~~~(refCrc8 [payloadHigh id, payloadMid id, payloadLow id]), cw := refCodeword id } .id
  generalize hu : State.frmConst { s with
    acc32 := ~~~(refCrc32 s.uid.toList), ident := BitVec.ofNat 24 (refIdentity s.uid),
    acc8 := ~~~(refCrc8 [payloadHigh id, payloadMid id, payloadLow id]), cw := refCodeword id } .id = u
    at hc fc
  have hdef' : s.idBuild = u.encWord .id u.cw := by rw [hdef, ← hu]
  have hcw : u.cw = refCodeword id := by rw [hc]
  obtain ⟨he, fe⟩ := State.encWord_spec u .id u.cw
  rw [← hdef'] at he fe
  rw [hcw] at he fe
  refine ⟨?_, ?_, fe.coded, ?_, fun h => fe.wf (fc.wf h)⟩
  · rw [he, hc]
  · exact fc.const.mono fun i hi => fe.kept .id i (.inr hi)
  · intro c i h
    rw [fe.kept c i (by rcases h with h | h <;> [exact .inl h; exact .inr (.inr (by omega))])]
    exact fc.kept c i (by rcases h with h | h <;> [exact .inl h; exact .inr (.inr h)])

/-- All that TS.BUILD does. -/
theorem State.tsBuild_spec (s : State) (d e : Half) :
    let p := refTsPayload d e
    s.tsBuild d e = { s with
        acc8 := ~~~(refCrc8 [payloadHigh p, payloadMid p, payloadLow p]), cw := refCodeword p,
        sr := encRegister (refCodeword p) 40, mem := (s.tsBuild d e).mem } ∧
      Emitted s.mem (s.tsBuild d e).mem .ts (refCodeword p) 40 := by
  intro p
  have hdef : s.tsBuild d e = State.encWord { s with
      acc8 := ~~~(refCrc8 [payloadHigh p, payloadMid p, payloadLow p]), cw := refCodeword p } .ts (refCodeword p) := by
    unfold State.tsBuild
    rw [State.cwMake_eq, tsPayload_eq]; rfl
  obtain ⟨he, fe⟩ := State.encWord_spec { s with
      acc8 := ~~~(refCrc8 [payloadHigh p, payloadMid p, payloadLow p]), cw := refCodeword p } .ts (refCodeword p)
  rw [← hdef] at he fe
  exact ⟨he, fe⟩

/-- The fields TS.BUILD can change. -/
theorem State.tsBuild_eq (s : State) (d e : Half) :
    s.tsBuild d e = { s with
      acc8 := (s.tsBuild d e).acc8, sr := (s.tsBuild d e).sr, cw := (s.tsBuild d e).cw, mem := (s.tsBuild d e).mem } := by
  obtain ⟨h, _⟩ := State.tsBuild_spec s d e
  generalize s.tsBuild d e = x at *
  rw [h]

/-- The fields BOOT's two framings can change. -/
theorem State.bootBuild_eq (s : State) :
    s.idBuild.frmConst .ts = { s with
      acc32 := (s.idBuild.frmConst .ts).acc32, acc8 := (s.idBuild.frmConst .ts).acc8,
      sr := (s.idBuild.frmConst .ts).sr, cw := (s.idBuild.frmConst .ts).cw,
      ident := (s.idBuild.frmConst .ts).ident, mem := (s.idBuild.frmConst .ts).mem } := by
  obtain ⟨h, _⟩ := State.idBuild_spec s
  obtain ⟨h2, _⟩ := State.frmConst_spec s.idBuild .ts
  generalize s.idBuild.frmConst .ts = x at *
  rw [h2, h]

end Sys2Proof.Machine
end

