-- ==== Sys2Proof/Laws/PerInstr.lean ====
section
/-! SUPPORT. Per-instruction families: a statement about the instruction as syntax and one lemma per constructor. -/

/-- Every instruction's word has a code of 30_encoding.md R69's table and an operand of the kind the table gives it,
whatever the operand's value. -/
def Sys2Proof.Laws.EncodeWellFormed.Statement (i : Sys2Proof.Instr) : Prop :=
  (Sys2Proof.encode i).wellFormed = true

namespace Sys2Proof.Laws.EncodeWellFormed

theorem crc32Clr : Statement (.crc32Clr) := rfl
theorem crc32Bit (d : Bit) : Statement (.crc32Bit d) := rfl
theorem crc32Byte (b : Byte) : Statement (.crc32Byte b) := rfl
theorem crc32Fin : Statement (.crc32Fin) := rfl
theorem crc8Clr : Statement (.crc8Clr) := rfl
theorem crc8Byte (b : Byte) : Statement (.crc8Byte b) := rfl
theorem crc8Fin : Statement (.crc8Fin) := rfl
theorem encClr : Statement (.encClr) := rfl
theorem encBit (d : Bit) : Statement (.encBit d) := rfl
theorem encWord (b : BufSel) (w : Codeword) : Statement (.encWord b w) := rfl
theorem frmConst (b : BufSel) : Statement (.frmConst b) := rfl
theorem frmCode (b : BufSel) (w : Codeword) : Statement (.frmCode b w) := rfl
theorem cwMake (p : Payload) : Statement (.cwMake p) := rfl
theorem idBuild : Statement (.idBuild) := rfl
theorem tsBuild (d e : Half) : Statement (.tsBuild d e) := rfl
theorem seqBoot : Statement (.seqBoot) := rfl
theorem txBegin : Statement (.txBegin) := rfl
theorem txUnit : Statement (.txUnit) := rfl
theorem txEnd : Statement (.txEnd) := rfl
theorem planSnap : Statement (.planSnap) := rfl
theorem planBuild : Statement (.planBuild) := rfl
theorem wait : Statement (.wait) := rfl
theorem tickAdv : Statement (.tickAdv) := rfl
theorem epochInc : Statement (.epochInc) := rfl

end Sys2Proof.Laws.EncodeWellFormed
end

