-- ==== Sys2Proof/Laws/Step.lean ====
section
/-! SUPPORT. What a step can do, said once: what is fetched, what each scheduler step answers, and the moves of the
machine at the scheduler level. -/

namespace Sys2Proof.Machine

/-! ### Fetching -/

/-- The operation each value of `st` selects. -/
def seqInstr : SeqState → Instr
  | .boot => .seqBoot
  | .txBegin => .txBegin
  | .txUnit => .txUnit
  | .txEnd => .txEnd
  | .planSnap => .planSnap
  | .planBuild => .planBuild
  | .wait => .wait

theorem decode_seqWord (st : SeqState) : decode (seqWord st) = .ok (seqInstr st) := by cases st <;> rfl

theorem decode_tickWord : decode tickWord = .ok .tickAdv := rfl

/-- Using up a turn changes the turn list and the counter of draws alone. -/
theorem State.dropTurn_eq (s : State) :
    s.dropTurn = { s with turns := s.dropTurn.turns, draws := s.dropTurn.draws } := by
  unfold State.dropTurn; split <;> rfl

/-- What is fetched runs in the state as it was, less the turn or issued word and the strobe. -/
theorem State.afterFetch_eq (s : State) :
    s.afterFetch = { s with
      turns := s.afterFetch.turns, draws := s.afterFetch.draws, issue := s.afterFetch.issue, phySend := false } := by
  unfold State.afterFetch
  split
  · rw [State.dropTurn_eq]
  · split
    · rfl
    · rw [State.dropTurn_eq]

theorem State.afterFetch_noIssue {s : State} (h : s.issue = none) : s.afterFetch.issue = none := by
  unfold State.afterFetch
  split
  · rw [State.dropTurn_eq]; exact h
  · rw [h]; simp only; rw [State.dropTurn_eq]; exact h

theorem State.afterFetch_of_noIssue {s : State} (h : s.issue = none) :
    s.afterFetch = { s.dropTurn with phySend := false } := by
  unfold State.afterFetch; rw [h]; simp

/-- At the scheduler level, what is fetched is SEQ's step or TICK's, unless PHY, ENV or `rst` has the turn. -/
theorem State.fetch_cases {s : State} (h : s.issue = none) :
    (s.rst = false ∧ s.turn = .seq ∧ s.fetch = .op (seqWord s.st)) ∨
    (s.rst = false ∧ s.turn = .tick ∧ s.fetch = .op tickWord) ∨
    (s.rst = true ∧ (s.turn = .seq ∨ s.turn = .tick) ∧ s.fetch = .held) ∨
    (∃ r b, s.turn = .phy r b ∧ s.fetch = .outside (.phy r b)) ∨
    (∃ v, s.turn = .jitter v ∧ s.fetch = .outside (.jitter v)) ∨
    (∃ l, s.turn = .rst l ∧ s.fetch = .outside (.rst l)) := by
  unfold State.fetch
  rw [h]
  cases s.rst <;> cases s.turn <;> simp [heldTurn, fetchTurn]

/-! ### The answers of the scheduler's steps -/

theorem execTxUnit_of {s : State} (h : s.st = .txUnit) (hr : s.phyReady = true) {v : Byte}
    (hi : s.idx.toNat < 104) (hv : s.mem.byte? s.sel s.idx.toNat = some v) :
    execTxUnit s = .next { s.sendUnit v with
      idx := s.idx + 1, st := if drained (s.idx + 1) then .txEnd else s.st } := by
  unfold execTxUnit
  rw [h, hr, beq_self_eq_true, Bool.and_self, whenEnabled_true, State.memRead_ok.mpr ⟨hi, hv⟩, h]

/-- SEQ's seven steps, and a step that is not enabled: what each can leave of the state in which it runs. -/
inductive SeqMove (u : State) : State → Prop where
  | stuck : SeqMove u u
  | boot (h : u.st = .boot) : SeqMove u { u.idBuild.frmConst .ts with st := .txBegin }
  | txBegin (h : u.st = .txBegin) : SeqMove u { u with irqMask := true, idx := 0, st := .txUnit }
  | txUnit (h : u.st = .txUnit) (hr : u.phyReady = true) (v : Byte) (hi : u.idx.toNat < 104)
      (hv : u.mem.byte? u.sel u.idx.toNat = some v) :
      SeqMove u { u.sendUnit v with idx := u.idx + 1, st := if drained (u.idx + 1) then .txEnd else u.st }
  | txEnd (h : u.st = .txEnd) (hb : u.phyBusy = false) :
      SeqMove u { u with
        irqMask := false, epoch := if u.ovfPending then u.epoch + 1 else u.epoch, ovfPending := false, st := .planSnap }
  | snap (h : u.st = .planSnap) (hj : u.jitterIn.toNat ≤ 9) : SeqMove u u.snap
  | buildId (h : u.st = .planBuild) (hn : u.nxtSync = false) : SeqMove u { u with sel := .id, st := .wait }
  | buildTs (h : u.st = .planBuild) (hn : u.nxtSync = true) :
      SeqMove u { u.tsBuild u.deadline u.eval with sel := .ts, st := .wait }
  | wait (h : u.st = .wait) (hd : u.tickCnt = u.deadline) : SeqMove u { u with st := .txBegin }

/-- The moves of the machine at the scheduler level, `rst` not being asserted: what each can leave of the state in
which it runs. -/
inductive Move (u : State) : State → Prop where
  | stuck : Move u u
  | boot (h : u.st = .boot) : Move u { u.idBuild.frmConst .ts with st := .txBegin }
  | txBegin (h : u.st = .txBegin) : Move u { u with irqMask := true, idx := 0, st := .txUnit }
  | txUnit (h : u.st = .txUnit) (hr : u.phyReady = true) (v : Byte) (hi : u.idx.toNat < 104)
      (hv : u.mem.byte? u.sel u.idx.toNat = some v) :
      Move u { u.sendUnit v with idx := u.idx + 1, st := if drained (u.idx + 1) then .txEnd else u.st }
  | txEnd (h : u.st = .txEnd) (hb : u.phyBusy = false) :
      Move u { u with
        irqMask := false, epoch := if u.ovfPending then u.epoch + 1 else u.epoch, ovfPending := false, st := .planSnap }
  | snap (h : u.st = .planSnap) (hj : u.jitterIn.toNat ≤ 9) : Move u u.snap
  | buildId (h : u.st = .planBuild) (hn : u.nxtSync = false) : Move u { u with sel := .id, st := .wait }
  | buildTs (h : u.st = .planBuild) (hn : u.nxtSync = true) :
      Move u { u.tsBuild u.deadline u.eval with sel := .ts, st := .wait }
  | wait (h : u.st = .wait) (hd : u.tickCnt = u.deadline) : Move u { u with st := .txBegin }
  | tick (h : ¬ (u.st = .wait ∧ u.tickCnt = u.deadline)) : Move u u.advanceTick
  | phy (r b : Bool) : Move u { u with phyReady := r, phyBusy := b }
  | jitter (v : BitVec 4) : Move u { u with jitterIn := v }
  | release : Move u { u with rst := false }

/-- SEQ's step of the current `st` answers one of its moves, a fault of its read, or a refusal of its draw. -/
theorem seqStep_seqMove (u : State) :
    (∃ t, exec (seqInstr u.st) u = .next t ∧ SeqMove u t) ∨
    (u.st = .txUnit ∧ ∃ f, exec (seqInstr u.st) u = .fault f ∧ u.memRead u.sel u.idx.toNat = .error f) ∨
    (u.st = .planSnap ∧ 10 ≤ u.jitterIn.toNat ∧
      exec (seqInstr u.st) u = .refused (.jitterOutOfContract u.jitterIn)) := by
  have hself : ∀ x : SeqState, (x == x) = true := by intro x; cases x <;> rfl
  cases hst : u.st
  case boot =>
    left; refine ⟨_, ?_, SeqMove.boot hst⟩
    simp [seqInstr, exec, execSeqBoot, hst, whenEnabled]
  case txBegin =>
    left; refine ⟨_, ?_, SeqMove.txBegin hst⟩
    simp [seqInstr, exec, execTxBegin, hst, whenEnabled]
  case txUnit =>
    cases hr : u.phyReady
    · left; refine ⟨u, ?_, SeqMove.stuck⟩
      simp [seqInstr, exec, execTxUnit, hr, whenEnabled]
    · rcases State.memRead_cases u u.sel u.idx.toNat with ⟨v, hi, hv, hm⟩ | ⟨hi, hv, hm⟩ | ⟨hi, hm⟩
      · left; exact ⟨_, execTxUnit_of hst hr hi hv, SeqMove.txUnit hst hr v hi hv⟩
      · right; left; refine ⟨rfl, _, ?_, hm⟩
        simp [seqInstr, exec, execTxUnit, hst, hr, whenEnabled, hm]
      · right; left; refine ⟨rfl, _, ?_, hm⟩
        simp [seqInstr, exec, execTxUnit, hst, hr, whenEnabled, hm]
  case txEnd =>
    cases hb : u.phyBusy
    · left; refine ⟨_, ?_, SeqMove.txEnd hst hb⟩
      cases ho : u.ovfPending <;> simp [seqInstr, exec, execTxEnd, hst, hb, ho, whenEnabled, State.takeTickInterrupt]
    · left; refine ⟨u, ?_, SeqMove.stuck⟩
      simp [seqInstr, exec, execTxEnd, hb, whenEnabled]
  case planSnap =>
    by_cases hj : u.jitterIn.toNat ≤ 9
    · left; refine ⟨_, ?_, SeqMove.snap hst hj⟩
      simp [seqInstr, exec, execPlanSnap, hst, whenEnabled, jitterInContract, hj]
    · right; right; refine ⟨rfl, by omega, ?_⟩
      simp [seqInstr, exec, execPlanSnap, hst, whenEnabled, jitterInContract, hj]
  case planBuild =>
    cases hn : u.nxtSync
    · left; refine ⟨_, ?_, SeqMove.buildId hst hn⟩
      simp [seqInstr, exec, execPlanBuild, hst, whenEnabled, hn]
    · left; refine ⟨_, ?_, SeqMove.buildTs hst hn⟩
      simp [seqInstr, exec, execPlanBuild, hst, whenEnabled, hn]
  case wait =>
    by_cases hd : u.tickCnt = u.deadline
    · left; refine ⟨_, ?_, SeqMove.wait hst hd⟩
      simp [seqInstr, exec, execWait, hst, whenEnabled, hd]
    · left; refine ⟨u, ?_, SeqMove.stuck⟩
      simp [seqInstr, exec, execWait, whenEnabled, hd]

theorem SeqMove.move {u t : State} (h : SeqMove u t) : Move u t := by
  cases h with
  | stuck => exact .stuck
  | boot h => exact .boot h
  | txBegin h => exact .txBegin h
  | txUnit h hr v hi hv => exact .txUnit h hr v hi hv
  | txEnd h hb => exact .txEnd h hb
  | snap h hj => exact .snap h hj
  | buildId h hn => exact .buildId h hn
  | buildTs h hn => exact .buildTs h hn
  | wait h hd => exact .wait h hd

/-- SEQ's step of the current `st` answers a move, a fault of its read, or a refusal of its draw. -/
theorem seqStep_move (u : State) :
    (∃ t, exec (seqInstr u.st) u = .next t ∧ Move u t) ∨
    (u.st = .txUnit ∧ ∃ f, exec (seqInstr u.st) u = .fault f ∧ u.memRead u.sel u.idx.toNat = .error f) ∨
    (u.st = .planSnap ∧ 10 ≤ u.jitterIn.toNat ∧
      exec (seqInstr u.st) u = .refused (.jitterOutOfContract u.jitterIn)) := by
  rcases seqStep_seqMove u with ⟨t, he, hm⟩ | h
  · exact .inl ⟨t, he, hm.move⟩
  · exact .inr h

/-- TICK's step answers a move. -/
theorem tickStep_move (u : State) : ∃ t, exec .tickAdv u = .next t ∧ Move u t := by
  by_cases h : u.st = .wait ∧ u.tickCnt = u.deadline
  · exact ⟨u, by simp [exec, execTickAdv, tickEnabled, h.1, h.2, whenEnabled], Move.stuck⟩
  · refine ⟨_, ?_, Move.tick h⟩
    have : tickEnabled u = true := by
      simp only [tickEnabled, Bool.not_eq_true', Bool.and_eq_false_iff, beq_eq_false_iff_ne]
      tauto
    simp [exec, execTickAdv, this]

theorem resets_iff {s : State} : s.resets = true ↔ s.fetch = .outside (.rst true) := by
  unfold State.resets; rw [beq_iff_eq]

/-- All that a step at the scheduler level can answer. -/
theorem step_cases {s : State} (hi : s.issue = none) :
    (s.resets = true ∧ step s = .next { s.afterFetch.toReset with rst := true }) ∨
    (s.resets = false ∧ ∃ t, step s = .next t ∧ Move s.afterFetch t) ∨
    (s.rst = false ∧ s.turn = .seq ∧ s.st = .txUnit ∧
      ∃ f, step s = .fault f ∧ s.afterFetch.memRead s.sel s.idx.toNat = .error f) ∨
    (s.rst = false ∧ s.turn = .seq ∧ s.st = .planSnap ∧ 10 ≤ s.jitterIn.toNat ∧
      step s = .refused (.jitterOutOfContract s.jitterIn)) := by
  have hst : s.afterFetch.st = s.st := by rw [State.afterFetch_eq]
  have hsel : s.afterFetch.sel = s.sel := by rw [State.afterFetch_eq]
  have hidx : s.afterFetch.idx = s.idx := by rw [State.afterFetch_eq]
  have hjit : s.afterFetch.jitterIn = s.jitterIn := by rw [State.afterFetch_eq]
  rcases State.fetch_cases hi with ⟨hr, ht, hf⟩ | ⟨hr, ht, hf⟩ | ⟨hr, ht, hf⟩ | ⟨r, b, ht, hf⟩ | ⟨v, ht, hf⟩ | ⟨l, ht, hf⟩
  · have hs : step s = exec (seqInstr s.afterFetch.st) s.afterFetch := by
      unfold step; rw [hf]; simp only [decode_seqWord]; rw [hst]
    have hres : s.resets = false := by simp [State.resets, hf]
    rcases seqStep_move s.afterFetch with ⟨t, he, hm⟩ | ⟨hu, f, he, hm⟩ | ⟨hp, hj, he⟩
    · exact .inr (.inl ⟨hres, t, by rw [hs, he], hm⟩)
    · exact .inr (.inr (.inl ⟨hr, ht, by rw [← hst]; exact hu, f, by rw [hs, he], by rw [← hsel, ← hidx]; exact hm⟩))
    · exact .inr (.inr (.inr ⟨hr, ht, by rw [← hst]; exact hp, by rw [← hjit]; exact hj, by rw [hs, he, hjit]⟩))
  · have hs : step s = exec .tickAdv s.afterFetch := by
      unfold step; rw [hf]; simp only [decode_tickWord]
    obtain ⟨t, he, hm⟩ := tickStep_move s.afterFetch
    exact .inr (.inl ⟨by simp [State.resets, hf], t, by rw [hs, he], hm⟩)
  · exact .inr (.inl ⟨by simp [State.resets, hf], s.afterFetch, by unfold step; rw [hf], Move.stuck⟩)
  · exact .inr (.inl ⟨by simp [State.resets, hf], _, by unfold step; rw [hf]; rfl, Move.phy r b⟩)
  · exact .inr (.inl ⟨by simp [State.resets, hf], _, by unfold step; rw [hf]; rfl, Move.jitter v⟩)
  · cases l
    · exact .inr (.inl ⟨by simp [State.resets, hf], _, by unfold step; rw [hf]; rfl, Move.release⟩)
    · exact .inl ⟨resets_iff.mpr hf, by unfold step; rw [hf]; rfl⟩

/-- The next state of a step at the scheduler level: reset, or a move. -/
theorem step_next_cases {s t : State} (hi : s.issue = none) (h : step s = .next t) :
    (s.resets = true ∧ t = { s.afterFetch.toReset with rst := true }) ∨
    (s.resets = false ∧ Move s.afterFetch t) := by
  rcases step_cases hi with ⟨hr, he⟩ | ⟨hr, u, he, hm⟩ | ⟨_, _, _, f, he, _⟩ | ⟨_, _, _, _, he⟩
  · rw [he] at h; cases h; exact .inl ⟨hr, rfl⟩
  · rw [he] at h; cases h; exact .inr ⟨hr, hm⟩
  · rw [he] at h; cases h
  · rw [he] at h; cases h

end Sys2Proof.Machine
end

