-- ==== Sys2Proof/Laws/Progress.lean ====
section
/-! SUPPORT. Progress under the fairness premises of 70_reset_and_hazards.md R190: what one turn of a behaviour can do,
that every wait of SEQ ends, and the hang without them (60_exceptions.md R160). -/

namespace Sys2Proof.Machine

/-- What a turn that is no enabled step of SEQ leaves: SEQ's place, and its deadline. -/
structure Held (s t : State) : Prop where
  st : t.st = s.st
  idx : t.idx = s.idx
  deadline : t.deadline = s.deadline

/-- An enabled step of SEQ, as far as progress sees it. -/
structure Stepped (s t : State) : Prop where
  unit : s.st = .txUnit → s.idx.toNat < 104 ∧ t.idx.toNat = s.idx.toNat + 1 ∧
    t.st = if s.idx.toNat = 103 then .txEnd else .txUnit
  done : s.st = .txEnd → t.st = .planSnap
  wait : s.st = .wait → t.st = .txBegin

theorem advanceTick_held (s : State) : Held s s.advanceTick ∧ s.advanceTick.tickCnt = s.tickCnt + 1 := by
  rcases s.advanceTick_cases with ⟨h, e⟩ | ⟨h, _, e⟩ | ⟨h, _, e⟩ <;> rw [e]
  · exact ⟨⟨rfl, rfl, rfl⟩, rfl⟩
  · exact ⟨⟨rfl, rfl, rfl⟩, h.symm⟩
  · exact ⟨⟨rfl, rfl, rfl⟩, h.symm⟩

/-- SEQ's step where it is not enabled changes nothing. -/
theorem seqStep_held {u t : State} (hd : u.seqEnabled = false) (h : exec (seqInstr u.st) u = .next t) : t = u := by
  rcases seqStep_seqMove u with ⟨y, he, hm⟩ | ⟨_, f, he, _⟩ | ⟨_, _, he⟩
  · rw [he] at h; cases h
    cases hm with
    | stuck => rfl
    | boot h | txBegin h | snap h _ | buildId h _ | buildTs h _ => simp [State.seqEnabled, h] at hd
    | txUnit h hr => simp [State.seqEnabled, h, hr] at hd
    | txEnd h hb => simp [State.seqEnabled, h, hb] at hd
    | wait h hq => simp [State.seqEnabled, h, hq] at hd
  · rw [he] at h; cases h
  · rw [he] at h; cases h

/-- SEQ's step where it is enabled goes on. -/
theorem seqStep_stepped {u t : State} (he : u.seqEnabled = true) (h : exec (seqInstr u.st) u = .next t) :
    Stepped u t := by
  refine ⟨fun hst => ?_, fun hst => ?_, fun hst => ?_⟩
  · have hr : u.phyReady = true := by simpa [State.seqEnabled, hst] using he
    rw [hst] at h
    rcases State.memRead_cases u u.sel u.idx.toNat with ⟨v, hi, hv, _⟩ | ⟨_, _, hm⟩ | ⟨_, hm⟩
    · have := (execTxUnit_of hst hr hi hv).symm.trans h
      cases this
      have hn : (u.idx + 1).toNat = u.idx.toNat + 1 := by
        have h1 : BitVec.toNat (1 : BitVec 7) = 1 := rfl
        rw [BitVec.toNat_add, h1]; omega
      refine ⟨hi, hn, ?_⟩
      simp only [drained_succ u.idx hi, hst, decide_eq_true_eq]
    all_goals simp [seqInstr, exec, execTxUnit, hst, hr, hm] at h
  · have hb : u.phyBusy = false := by simpa [State.seqEnabled, hst] using he
    rw [hst] at h
    simp only [seqInstr, exec, execTxEnd, hst, hb, beq_self_eq_true, Bool.not_false, Bool.and_self,
      whenEnabled_true] at h
    cases h; rfl
  · have hq : u.tickCnt = u.deadline := by simpa [State.seqEnabled, hst] using he
    rw [hst] at h
    simp only [seqInstr, exec, execWait, hst, hq, beq_self_eq_true, Bool.and_self, whenEnabled_true] at h
    cases h; rfl

/-- Using up a turn changes nothing that progress sees. -/
theorem afterFetch_held (s : State) : Held s s.afterFetch ∧ s.afterFetch.tickCnt = s.tickCnt ∧
    s.afterFetch.seqEnabled = s.seqEnabled ∧ tickEnabled s.afterFetch = tickEnabled s := by
  rw [State.afterFetch_eq]; exact ⟨⟨rfl, rfl, rfl⟩, rfl, rfl, rfl⟩

/-- Everything a step can do, as far as progress sees it, while `rst` is released and nothing is issued. -/
theorem step_progress {s t : State} (hi : s.issue = none) (hr : s.rst = false) (ht : t.rst = false)
    (hs : step s = .next t) :
    ((s.turn = .seq ∧ s.seqEnabled = true) ∧ Stepped s t) ∨
    (¬ (s.turn = .seq ∧ s.seqEnabled = true) ∧ Held s t ∧
      t.tickCnt = s.tickCnt + (if s.turn = .tick ∧ tickEnabled s = true then 1 else 0)) := by
  obtain ⟨hh, hc, he, hk⟩ := afterFetch_held s
  unfold step at hs
  rcases State.fetch_cases hi with ⟨_, hu, hf⟩ | ⟨_, hu, hf⟩ | ⟨hr', _⟩ | ⟨a, b, hu, hf⟩ | ⟨v, hu, hf⟩ | ⟨l, hu, hf⟩
  · simp only [hf, decode_seqWord] at hs
    rw [← hh.st] at hs
    cases hen : s.seqEnabled
    · right
      have := seqStep_held (he.trans hen) hs
      subst this
      exact ⟨by simp, hh, by simp [hu, hc]⟩
    · left
      obtain ⟨a, b, c⟩ := seqStep_stepped (he.trans hen) hs
      rw [hh.st, hh.idx] at a
      rw [hh.st] at b c
      exact ⟨⟨hu, rfl⟩, a, b, c⟩
  · right
    simp only [hf, decode_tickWord] at hs
    refine ⟨by simp [hu], ?_⟩
    cases hen : tickEnabled s
    · simp only [exec, execTickAdv, hk, hen, whenEnabled_false] at hs
      cases hs
      exact ⟨hh, by simp [hc]⟩
    · simp only [exec, execTickAdv, hk, hen, whenEnabled_true] at hs
      cases hs
      obtain ⟨⟨a, b, c⟩, d⟩ := advanceTick_held s.afterFetch
      exact ⟨⟨a.trans hh.st, b.trans hh.idx, c.trans hh.deadline⟩, by simp [d, hc, hu]⟩
  · rw [hr] at hr'; cases hr'
  · simp only [hf] at hs; cases hs
    exact .inr ⟨by simp [hu], ⟨hh.st, hh.idx, hh.deadline⟩, by simp [hu, State.drive, hc]⟩
  · simp only [hf] at hs; cases hs
    exact .inr ⟨by simp [hu], ⟨hh.st, hh.idx, hh.deadline⟩, by simp [hu, State.drive, hc]⟩
  · simp only [hf] at hs; cases hs
    cases l
    · exact .inr ⟨by simp [hu], ⟨hh.st, hh.idx, hh.deadline⟩, by simp [hu, State.drive, State.driveRst, hc]⟩
    · cases ht

/-- Everything a turn of a behaviour can do, as far as progress sees it. -/
theorem Behaviour.turn_cases {σ : Nat → Turn} {r : Nat → State} (h : Behaviour σ r) (n : Nat) :
    (SeqSteps σ r n ∧ Stepped (r n) (r (n + 1))) ∨
    (¬ SeqSteps σ r n ∧ Held (r n) (r (n + 1)) ∧
      (r (n + 1)).tickCnt = (r n).tickCnt + (if σ n = .tick ∧ tickEnabled (r n) = true then 1 else 0)) := by
  rcases step_progress (s := { r n with turns := [σ n] }) (h.noIssue n) (h.released n) (h.released (n + 1)) (h.next n)
    with ⟨a, b⟩ | ⟨a, b, c⟩
  · exact .inl ⟨a, ⟨b.unit, b.done, b.wait⟩⟩
  · exact .inr ⟨a, ⟨b.st, b.idx, b.deadline⟩, c⟩

/-- Without a step of SEQ, its place is kept. -/
theorem Behaviour.held {σ : Nat → Turn} {r : Nat → State} (h : Behaviour σ r) {n m : Nat} (hm : n ≤ m)
    (hno : ∀ j, n ≤ j → j < m → ¬ SeqSteps σ r j) : Held (r n) (r m) := by
  induction m, hm using Nat.le_induction with
  | base => exact ⟨rfl, rfl, rfl⟩
  | succ m hm ih =>
    obtain ⟨a, b, c⟩ := ih fun j h1 h2 => hno j h1 (by omega)
    rcases h.turn_cases m with ⟨hs, _⟩ | ⟨_, hh, _⟩
    · exact absurd hs (hno m hm (by omega))
    · exact ⟨hh.st.trans a, hh.idx.trans b, hh.deadline.trans c⟩

/-- Under F1, where the guard of SEQ's step comes to hold and stays so, SEQ takes that step. -/
theorem Behaviour.steps {σ : Nat → Turn} {r : Nat → State} (h : Behaviour σ r) (hf : SeqFair σ r) {n : Nat}
    (hu : UntilSeq σ r n fun s => s.seqEnabled = true) :
    ∃ m, n ≤ m ∧ Held (r n) (r m) ∧ Stepped (r m) (r (m + 1)) := by
  classical
  obtain ⟨m, hm, hk⟩ := hu
  have hex : ∃ j, n ≤ j ∧ SeqSteps σ r j := by
    by_contra hno
    have hno : ∀ j, n ≤ j → ¬ SeqSteps σ r j := fun j hj hs => hno ⟨j, hj, hs⟩
    obtain ⟨k, hk', hk''⟩ := hf m
    have he := hk k hk' fun j hj _ => hno j hj
    exact hno k (by omega) ⟨hk'' he, he⟩
  obtain ⟨hj, hs⟩ := Nat.find_spec hex
  have hno : ∀ i, n ≤ i → i < Nat.find hex → ¬ SeqSteps σ r i := fun i hi hlt hs => Nat.find_min hex hlt ⟨hi, hs⟩
  refine ⟨_, hj, h.held hj hno, ?_⟩
  rcases h.turn_cases (Nat.find hex) with ⟨_, hst⟩ | ⟨hno', _⟩
  · exact hst
  · exact absurd hs hno'

/-- A condition under which SEQ's step at the present `st` is enabled, kept until it steps. -/
theorem Behaviour.enabled {σ : Nat → Turn} {r : Nat → State} (h : Behaviour σ r) {n : Nat} {p : State → Prop}
    (hp : ∀ s : State, s.st = (r n).st → p s → s.seqEnabled = true) (hu : UntilSeq σ r n p) :
    UntilSeq σ r n fun s => s.seqEnabled = true := by
  obtain ⟨m, hm, hk⟩ := hu
  exact ⟨m, hm, fun k hmk hno => hp _ (h.held (by omega) hno).st (hk k hmk hno)⟩

/-- Under F1 and F3 every drain sends its last unit (60_exceptions.md R172 c). -/
theorem drain_ends {σ : Nat → Turn} {r : Nat → State} (h : Behaviour σ r) (hf : SeqFair σ r) (hp : PhyLive σ r) :
    ∀ n, (r n).st = .txUnit → ∃ m, n ≤ m ∧ (r m).st = .txEnd := by
  have key : ∀ d n, (r n).st = .txUnit → 104 - (r n).idx.toNat = d → ∃ m, n ≤ m ∧ (r m).st = .txEnd := by
    intro d
    induction d with
    | zero =>
      intro n hst hd
      obtain ⟨m, _, hh, hs⟩ := h.steps hf
        (h.enabled (fun s e he => by simp [State.seqEnabled, e, hst, he]) (hp.ready n hst))
      have := (hs.unit (hh.st.trans hst)).1
      rw [hh.idx] at this; omega
    | succ d ih =>
      intro n hst hd
      obtain ⟨m, hm, hh, hs⟩ := h.steps hf
        (h.enabled (fun s e he => by simp [State.seqEnabled, e, hst, he]) (hp.ready n hst))
      obtain ⟨h1, h2, h3⟩ := hs.unit (hh.st.trans hst)
      rw [hh.idx] at h1 h2 h3
      split at h3
      · exact ⟨m + 1, by omega, h3⟩
      · obtain ⟨k, hk, hk'⟩ := ih (m + 1) h3 (by omega)
        exact ⟨k, by omega, hk'⟩
  exact fun n hst => key _ n hst rfl

/-- Under F1 and F3 every drain is followed by a planning (R172 c). -/
theorem end_ends {σ : Nat → Turn} {r : Nat → State} (h : Behaviour σ r) (hf : SeqFair σ r) (hp : PhyLive σ r) (n : Nat)
    (hst : (r n).st = .txEnd) : ∃ m, n ≤ m ∧ (r m).st = .planSnap := by
  obtain ⟨m, hm, hh, hs⟩ := h.steps hf
    (h.enabled (fun s e he => by simp [State.seqEnabled, e, hst, he]) (hp.idle n hst))
  exact ⟨m + 1, by omega, hs.done (hh.st.trans hst)⟩

/-- Under F2 every wait ends (70_reset_and_hazards.md R190). -/
theorem wait_ends {σ : Nat → Turn} {r : Nat → State} (h : Behaviour σ r) (ht : TickForever σ r) (n : Nat)
    (hst : (r n).st = .wait) : ∃ m, n ≤ m ∧ (r m).st = .txBegin := by
  by_contra hno
  have hno : ∀ m, n ≤ m → (r m).st ≠ .txBegin := fun m hm e => hno ⟨m, hm, e⟩
  have hstep : ∀ m, n ≤ m → (r m).st = .wait → (r (m + 1)).st = .wait ∧
      ((r (m + 1)).deadline - (r (m + 1)).tickCnt).toNat +
        (if σ m = .tick ∧ tickEnabled (r m) = true then 1 else 0) = ((r m).deadline - (r m).tickCnt).toNat := by
    intro m hm hw
    rcases h.turn_cases m with ⟨_, hs⟩ | ⟨_, hh, hc⟩
    · exact absurd (hs.wait hw) (hno _ (by omega))
    · refine ⟨hh.st.trans hw, ?_⟩
      rw [hh.deadline, hc]
      split
      · next hk =>
        have hne : (r m).tickCnt ≠ (r m).deadline := fun e => by simp [tickEnabled, hw, e] at hk
        bv_omega
      · simp
  have key : ∀ d m, n ≤ m → (r m).st = .wait → ((r m).deadline - (r m).tickCnt).toNat = d → False := by
    intro d
    induction d using Nat.strong_induction_on with
    | _ d ih =>
      intro m hm hw hd
      obtain ⟨k, hk, hk1, hk2⟩ := ht m
      have hall : ∀ k, m ≤ k → (r k).st = .wait ∧ ((r k).deadline - (r k).tickCnt).toNat ≤ d := by
        intro k hk
        induction k, hk using Nat.le_induction with
        | base => exact ⟨hw, by omega⟩
        | succ k hk ih => have := hstep k (by omega) ih.1; exact ⟨this.1, by omega⟩
      obtain ⟨a, b⟩ := hall k hk
      obtain ⟨c, e⟩ := hstep k (by omega) a
      rw [if_pos ⟨hk1, hk2⟩] at e
      exact ih _ (by omega) (k + 1) (by omega) c rfl
  exact key _ n (Nat.le_refl n) hst rfl

/-- Without F3 the run hangs, and that is what the spec says (60_exceptions.md R160): while PHY is not ready, SEQ stays
at its unit. -/
theorem hang_without_phy {σ : Nat → Turn} {r : Nat → State} (h : Behaviour σ r) (n : Nat) (hst : (r n).st = .txUnit)
    (hb : ∀ m, n ≤ m → (r m).phyReady = false) (m : Nat) (hm : n ≤ m) :
    (r m).st = .txUnit ∧ (r m).idx = (r n).idx := by
  induction m, hm using Nat.le_induction with
  | base => exact ⟨hst, rfl⟩
  | succ m hm ih =>
    rcases h.turn_cases m with ⟨⟨_, he⟩, _⟩ | ⟨_, hh, _⟩
    · simp [State.seqEnabled, ih.1, hb m hm] at he
    · exact ⟨hh.st.trans ih.1, hh.idx.trans ih.2⟩

end Sys2Proof.Machine
end

