-- ==== Sys2Proof/Tests/Slice0.lean ====
section
/-! SUPPORT. Tests with expected values from spec/ (the vectors V1 to V12 of 95_test_vectors.md, the encodings of
30_encoding.md R69), and for each statement with hypotheses a state that meets them. -/

namespace Sys2Proof.Tests

open Sys2Proof Sys2Proof.Machine

-- One theorem at a time: every kernel check in flight takes a thread with its own large stack.
set_option Elab.async false

/-! ### What WellFormed refuses -/

theorem test_wf_accepts : OpWord.wellFormed ⟨0b01010, .buf .ts⟩ = true ∧ Turn.wellFormed (.jitter 9) = true := by
  decide
theorem test_wf_refuses_six_bits : OpWord.fits ⟨32, .none⟩ = false ∧ OpWord.wellFormed ⟨32, .none⟩ = false := by
  decide
theorem test_wf_refuses_unnamed_code :
    OpWord.named ⟨0b01111, .none⟩ = false ∧ OpWord.wellFormed ⟨0b10111, .none⟩ = false ∧
      OpWord.wellFormed ⟨0b11010, .none⟩ = false ∧ OpWord.wellFormed ⟨0b11111, .none⟩ = false := by decide
theorem test_wf_refuses_operand_kind :
    OpWord.kindMatches ⟨0b00001, .byte 1⟩ = false ∧ OpWord.wellFormed ⟨0b00001, .byte 1⟩ = false := by decide
theorem test_wf_refuses_jitter : Turn.wellFormed (.jitter 10) = false ∧ Turn.wellFormed (.jitter 15) = false := by
  decide

/-! ### Decoding: each code as R69 writes it -/

theorem test_decode_checksum :
    decode ⟨0b00000, .none⟩ = .ok .crc32Clr ∧ decode ⟨0b00001, .bit 1⟩ = .ok (.crc32Bit 1) ∧
    decode ⟨0b00010, .byte 0x80⟩ = .ok (.crc32Byte 0x80) ∧ decode ⟨0b00011, .none⟩ = .ok .crc32Fin ∧
    decode ⟨0b00100, .none⟩ = .ok .crc8Clr ∧ decode ⟨0b00101, .byte 0x57⟩ = .ok (.crc8Byte 0x57) ∧
    decode ⟨0b00110, .none⟩ = .ok .crc8Fin := by decide
theorem test_decode_encoder :
    decode ⟨0b00111, .none⟩ = .ok .encClr ∧ decode ⟨0b01000, .bit 0⟩ = .ok (.encBit 0) ∧
    decode ⟨0b01001, .bufWord .ts 0x80000001⟩ = .ok (.encWord .ts 0x80000001) := by decide
theorem test_decode_framer :
    decode ⟨0b01010, .buf .id⟩ = .ok (.frmConst .id) ∧
    decode ⟨0b01011, .bufWord .id 0x57BDD5C6⟩ = .ok (.frmCode .id 0x57BDD5C6) := by decide
theorem test_decode_builders :
    decode ⟨0b01100, .payload 0x98967F⟩ = .ok (.cwMake 0x98967F) ∧ decode ⟨0b01101, .none⟩ = .ok .idBuild ∧
    decode ⟨0b01110, .times 0x000B 0x0004⟩ = .ok (.tsBuild 0x000B 0x0004) := by decide
theorem test_decode_scheduler :
    decode ⟨0b10000, .none⟩ = .ok .seqBoot ∧ decode ⟨0b10001, .none⟩ = .ok .txBegin ∧
    decode ⟨0b10010, .none⟩ = .ok .txUnit ∧ decode ⟨0b10011, .none⟩ = .ok .txEnd ∧
    decode ⟨0b10100, .none⟩ = .ok .planSnap ∧ decode ⟨0b10101, .none⟩ = .ok .planBuild ∧
    decode ⟨0b10110, .none⟩ = .ok .wait := by decide
theorem test_decode_tick :
    decode ⟨0b11000, .none⟩ = .ok .tickAdv ∧ decode ⟨0b11001, .none⟩ = .ok .epochInc := by decide
theorem test_decode_refuses :
    decode ⟨0b01111, .none⟩ = .error (.reservedCode 15) ∧ decode ⟨0b10111, .none⟩ = .error (.reservedCode 23) ∧
    decode ⟨0b11010, .none⟩ = .error (.reservedCode 26) ∧ decode ⟨0b11111, .none⟩ = .error (.reservedCode 31) ∧
    decode ⟨0b100000, .none⟩ = .error (.notFiveBits 32) ∧
    decode ⟨0b00001, .byte 1⟩ = .error (.operandKind 1) := by decide

/-! ### States -/

/-- The reset state of a device with `uid` 01 to 0C and a preamble of positive symbols, its inputs known, its turns
SEQ, TICK. -/
def s0 : State :=
  { State.reset with
    uid := #v[1, 2, 3, 4, 5, 6, 7, 8, 9, 10, 11, 12]
    pre := .replicate 16 .pos
    tickCnt := 0x1234
    jitterIn := 9
    phyReady := true
    phyBusy := false
    turns := [.seq, .tick] }

/-- A state at a value of `st`. -/
def at' (st : SeqState) : State := { s0 with st := st }

/-- A framed buffer: the constant regions around the 80 symbols of a codeword, given as bits. -/
def frameCells (bits : Nat) : List Host.Cell :=
  (List.range 104).map fun i =>
    (i, if i < 4 ∨ 100 ≤ i then 0xAA else if i < 20 then 0x55 else bitByte (bits.testBit (99 - i)))

/-- V6's rows for the codewords 0x57BDD5C6 (identity) and 0xA4000B96 (time-sync), in their buffers. -/
def framed : Memory :=
  ⟨frameCells 0b00111000010100110100101011101001101101111100010001001010101101000101111010011100,
   frameCells 0b11100001101011110011010010110000000000001110001011000101100011010110010110011100⟩

/-- P2's end, both buffers framed. -/
def booted : State :=
  { s0 with st := .txBegin, acc32 := 0x6DA039AA, acc8 := 0x39, ident := 0x57BDD5, cw := 0x57BDD5C6, mem := framed }

/-- In the drain of the identity frame that follows a first PLAN.SNAP at counter value 0x1000. -/
def drain : State :=
  { booted with st := .txUnit, irqMask := true, cyc := 1, led := true, now := 0x1000, jit := 9, deadline := 0x1013 }

/-- Program P3 after step 3: a time-sync frame being planned across a counter wrap. -/
def planning : State :=
  { booted with
    st := .planBuild, nxtSync := true, now := 0xFFF8, jit := 9, deadline := 0x000B, eval := 4, epoch := 3
    tickCnt := 0xFFFA, turns := [.tick] }

/-- The same nine ticks after the PLAN.SNAP, the wrap counted: the last of them that P_PLAN allows. -/
def planningLate : State := { planning with epoch := 4, tickCnt := 0x0001, turns := [.seq] }

/-- Program P3 after step 21: the deadline of the time-sync frame is reached. -/
def waiting : State :=
  { booted with
    st := .wait, sel := .ts, nxtSync := true, now := 0xFFF8, jit := 9, deadline := 0x000B, eval := 4, epoch := 4
    tickCnt := 0x000B }

/-! ### Vectors, one step each -/

theorem test_crc32Clr : (nextState? (exec .crc32Clr s0)).map (·.acc32) = some 0xFFFFFFFF := by decide +kernel
/-- V1 -/
theorem test_crc32Bit :
    (nextState? (exec (.crc32Bit 0) { s0 with acc32 := 0xFFFFFFFF })).map (·.acc32) = some 0x92477CDF ∧
    (nextState? (exec (.crc32Bit 1) { s0 with acc32 := 0x00000001 })).map (·.acc32) = some 0x00000000 := by
  decide +kernel
/-- V2 -/
theorem test_crc32Byte :
    (nextState? (exec (.crc32Byte 0x01) { s0 with acc32 := 0xFFFFFFFF })).map (·.acc32) = some 0x5AFA20E4 ∧
    (nextState? (exec (.crc32Byte 0x80) { s0 with acc32 := 0xFFFFFFFF })).map (·.acc32) = some 0xC0459352 := by
  decide +kernel
/-- V2, "123456789" -/
theorem test_crc32Fin :
    (nextState? (exec .crc32Fin { s0 with acc32 := 0x340BC6D9 })).map (·.ret) = some (.word 0xCBF43926) := by
  decide +kernel
theorem test_crc8Clr : (nextState? (exec .crc8Clr s0)).map (·.acc8) = some 0xFF := by decide +kernel
/-- V3 -/
theorem test_crc8Byte :
    (nextState? (exec (.crc8Byte 0x01) { s0 with acc8 := 0xFF })).map (·.acc8) = some 0x5E ∧
    (nextState? (exec (.crc8Byte 0xD5) { s0 with acc8 := 0x34 })).map (·.acc8) = some 0x39 := by decide +kernel
/-- V3 -/
theorem test_crc8Fin : (nextState? (exec .crc8Fin { s0 with acc8 := 0x5E })).map (·.ret) = some (.byte 0xA1) := by
  decide +kernel
theorem test_encClr : (nextState? (exec .encClr { s0 with sr := 0x1FF })).map (·.sr) = some 0 := by decide +kernel
/-- V5 -/
theorem test_encBit_one_tap :
    (nextState? (exec (.encBit 0) { s0 with sr := 0x001 })).map (fun t => (t.sr, t.ret)) =
      some (0x002, .symbols 0x55 0xAA) := by decide +kernel
/-- V5 -/
theorem test_encBit_discards_bit_8 :
    (nextState? (exec (.encBit 0) { s0 with sr := 0x100 })).map (fun t => (t.sr, t.ret)) =
      some (0x000, .symbols 0xAA 0xAA) := by decide +kernel
/-- V6, row 0xA5A5A5A5 -/
theorem test_encWord :
    (nextState? (exec (.encWord .ts 0xA5A5A5A5) { s0 with sr := 0x1FF })).map
      (fun t => (t.sr, (List.range 80).map fun j => t.mem.byte? .ts (20 + j))) =
    some (0x100, (List.range 80).map fun j => some (bitByte (Nat.testBit
      0b11100001101011000110100010010111011010001001011101101000100101111000100100111011 (79 - j)))) := by
  decide +kernel
/-- V7 -/
theorem test_frmConst :
    (nextState? (exec (.frmConst .ts) s0)).map (fun t => ([0, 3, 4, 19, 20, 99, 100, 103].map (t.mem.byte? .ts),
      t.mem.byte? .id 0)) =
    some ([some 0xAA, some 0xAA, some 0x55, some 0x55, none, none, some 0xAA, some 0xAA], none) := by decide +kernel
/-- V7: the impulse response of 0x80000000 -/
theorem test_frmCode :
    (nextState? (exec (.frmCode .ts 0x80000000) s0)).map
      (fun t => (t.sr, (List.range 20).map fun j => t.mem.byte? .ts (20 + j))) =
    some (0x000, (List.range 20).map fun j => some (bitByte (Nat.testBit 0b11101111011000101100 (19 - j)))) := by
  decide +kernel
/-- V8 -/
theorem test_cwMake :
    (nextState? (exec (.cwMake 0x123456) s0)).map (·.cw) = some 0x12345602 ∧
    (nextState? (exec (.cwMake 0x98967F) s0)).map (·.cw) = some 0x98967F0F := by decide +kernel
/-- V9, second row -/
theorem test_idBuild :
    (nextState? (exec .idBuild s0)).map (fun t => (t.acc32, t.acc8, t.ident, t.cw, t.sr)) =
      some (0x6DA039AA, 0x39, 0x57BDD5, 0x57BDD5C6, 0x000) := by decide +kernel
/-- V9, third row: bit 31 of the hash is set -/
theorem test_idBuild_unsigned :
    (nextState? (exec .idBuild { s0 with uid := .replicate 12 0xFF })).map (fun t => (t.ident, t.cw)) =
      some (0x71668A, 0x71668A13) := by decide +kernel
/-- V10, rows 2 and 7 -/
theorem test_tsBuild :
    (nextState? (exec (.tsBuild 0xFFFF 0xFFFF) s0)).map (·.cw) = some 0xAFFFFF3A ∧
    (nextState? (exec (.tsBuild 0x0005 0x0010) s0)).map (·.cw) = some 0xA00005BE := by decide +kernel
/-- P2: the codeword region of the identity buffer, and no time-sync codeword yet -/
theorem test_seqBoot :
    (nextState? (exec .seqBoot s0)).map (fun t => (t.st, t.ident,
      (List.range 80).map (fun j => t.mem.byte? .id (20 + j)), t.mem.byte? .ts 20, t.mem.byte? .ts 4)) =
    some (.txBegin, 0x57BDD5, (List.range 80).map (fun j => some (bitByte (Nat.testBit
      0b00111000010100110100101011101001101101111100010001001010101101000101111010011100 (79 - j)))), none,
      some 0x55) := by decide +kernel
theorem test_txBegin :
    (nextState? (exec .txBegin { at' .txBegin with idx := 104 })).map (fun t => (t.irqMask, t.idx, t.st)) =
      some (true, 0, .txUnit) := by decide +kernel
/-- V12: the last unit of a drain -/
theorem test_txUnit :
    (nextState? (exec .txUnit { at' .txUnit with idx := 103, mem := ⟨[(103, 0xAA)], []⟩, line := [0x55] })).map
      (fun t => (t.line, t.phyData, t.phySend, t.idx, t.st)) =
    some ([0x55, 0xAA], 0xAA, true, 104, .txEnd) := by decide +kernel
/-- V12: not ready -/
theorem test_txUnit_stuck :
    nextState? (exec .txUnit { at' .txUnit with phyReady := false }) =
      some { at' .txUnit with phyReady := false } := by decide +kernel
/-- V12 -/
theorem test_txEnd :
    (nextState? (exec .txEnd { at' .txEnd with irqMask := true, ovfPending := true, epoch := 3 })).map
      (fun t => (t.irqMask, t.ovfPending, t.epoch, t.st)) = some (false, false, 4, .planSnap) := by decide +kernel
/-- V12: busy -/
theorem test_txEnd_stuck :
    (nextState? (exec .txEnd { at' .txEnd with irqMask := true, phyBusy := true })).map (fun t => (t.irqMask, t.st)) =
      some (true, .txEnd) := by decide +kernel
/-- V11, row 8: the boundary of the wrap test -/
theorem test_planSnap :
    (nextState? (exec .planSnap { at' .planSnap with cyc := 666, tickCnt := 0xFFED, jitterIn := 9, epoch := 3 })).map
      (fun t => (t.nxtSync, t.cyc, t.led, t.deadline, t.eval, t.now)) =
    some (true, 0, false, 0x0000, 0x0004, 0xFFED) := by decide +kernel
/-- V11, rows 7 and 10 -/
theorem test_planSnap_no_wrap :
    (nextState? (exec .planSnap { at' .planSnap with cyc := 666, tickCnt := 0xFFEC, jitterIn := 9, epoch := 3 })).map
      (fun t => (t.deadline, t.eval)) = some (0xFFFF, 0x0003) ∧
    (nextState? (exec .planSnap { at' .planSnap with cyc := 0, tickCnt := 0xFFFA, jitterIn := 0, eval := 7 })).map
      (fun t => (t.nxtSync, t.cyc, t.led, t.deadline, t.eval)) = some (false, 1, true, 0x0004, 7) := by
  decide +kernel
/-- P3, step 4 -/
theorem test_planBuild :
    (nextState? (exec .planBuild { at' .planBuild with nxtSync := true, deadline := 0x000B, eval := 4 })).map
      (fun t => (t.cw, t.sel, t.st, t.mem.byte? .ts 20, t.mem.byte? .ts 23)) =
    some (0xA4000B96, .ts, .wait, some 0x55, some 0xAA) := by decide +kernel
/-- V12 -/
theorem test_wait :
    (nextState? (exec .wait { at' .wait with tickCnt := 0x000A, deadline := 0x000B })).map (·.st) = some .wait ∧
    (nextState? (exec .wait { at' .wait with tickCnt := 0x000B, deadline := 0x000B })).map (·.st) = some .txBegin := by
  decide +kernel
/-- V12: a wrap, unmasked -/
theorem test_tickAdv :
    (nextState? (exec .tickAdv { s0 with tickCnt := 0xFFFF, epoch := 0xFFFF })).map
      (fun t => (t.tickCnt, t.epoch, t.ovfPending)) = some (0, 0, false) := by decide +kernel
/-- V12: a wrap, masked -/
theorem test_tickAdv_masked :
    (nextState? (exec .tickAdv { s0 with tickCnt := 0xFFFF, irqMask := true, epoch := 3 })).map
      (fun t => (t.tickCnt, t.epoch, t.ovfPending)) = some (0, 3, true) := by decide +kernel
theorem test_epochInc :
    (nextState? (exec .epochInc { s0 with epoch := 0xFFFF, ovfPending := true })).map
      (fun t => (t.epoch, t.ovfPending)) = some (0, false) := by decide +kernel

/-! ### The step -/

/-- After reset, each table word but TX.UNIT's runs. -/
theorem test_withFetchWord_runs :
    [0b00000, 0b00001, 0b00010, 0b00011, 0b00100, 0b00101, 0b00110, 0b00111, 0b01000, 0b01001, 0b01010, 0b01011,
      0b01100, 0b01101, 0b01110, 0b10000, 0b10001, 0b10011, 0b10100, 0b10101, 0b10110, 0b11000, 0b11001].all
      (fun w => (nextState? (step (State.reset.withFetchWord 8 w))).isSome) = true := by decide +kernel
/-- TX.UNIT runs too, and faults: no buffer has been framed (93_implementation_defined.md U11). -/
theorem test_withFetchWord_txUnit :
    step (State.reset.withFetchWord 8 0b10010) = .fault (.unwrittenByte .id 0) := rfl
theorem test_withFetchWord_refuses :
    step (State.reset.withFetchWord 8 0b01111) = .refused (.undecodable (.reservedCode 15)) := rfl
/-- SEQ's turn runs the step of `st`, TICK's turn comes next. -/
theorem test_step_turns :
    (nextState? (step { at' .txBegin with turns := [.seq, .tick] })).map (fun t => (t.st, t.turns)) =
      some (.txUnit, [.tick]) := by decide +kernel

/-! ### Hypotheses met -/

theorem symbols_of {m : Memory} (h : ∀ b, (m.cells b).all (fun c => c.2 == 0xAA || c.2 == 0x55) = true) :
    ∀ b i v, m.byte? b i = some v → v = 0xAA ∨ v = 0x55 := by
  intro b i v hv
  have key : ∀ l : List Host.Cell, l.all (fun c => c.2 == 0xAA || c.2 == 0x55) = true → cellAt i l = some v →
      v = 0xAA ∨ v = 0x55 := by
    intro l
    induction l with
    | nil => intro _ h; cases h
    | cons c rest ih =>
      obtain ⟨j, u⟩ := c
      intro ha hc
      simp only [List.all_cons, Bool.and_eq_true, Bool.or_eq_true, beq_iff_eq] at ha
      unfold cellAt at hc
      split at hc
      · cases hc; exact ha.1
      · exact ih ha.2 hc
  exact key _ (h b) hv

theorem all_bufs {p : BufSel → Prop} (h1 : p .id) (h2 : p .ts) : ∀ b, p b := by
  intro b; cases b
  · exact h1
  · exact h2

/-- A step that has a next state has one with the fields shown. -/
theorem next_of {α : Type} {o : Host.Outcome State Fault Refusal} {f : State → α} {v : α}
    (h : (nextState? o).map f = some v) : ∃ t, o = .next t ∧ f t = v := by
  cases o with
  | next t => exact ⟨t, rfl, by simpa [nextState?] using h⟩
  | fault r => cases h
  | refused r => cases h

theorem coreInv_drain : CoreInv drain :=
  ⟨by decide +kernel, by decide +kernel, by decide +kernel, by decide +kernel, by decide +kernel, by decide +kernel,
    by decide +kernel, by decide +kernel, by decide +kernel, symbols_of (all_bufs (by decide +kernel) (by decide +kernel)),
    by decide +kernel, by decide +kernel, by decide +kernel⟩

theorem frameInv_drain : FrameInv drain :=
  ⟨by decide +kernel, by decide +kernel, by decide +kernel, fun _ => by unfold ConstFramed; decide +kernel,
    fun _ => by unfold Coded; decide +kernel, fun _ => by unfold ConstFramed; decide +kernel,
    fun h => absurd h (by decide +kernel)⟩

theorem coreInv_waiting : CoreInv waiting :=
  ⟨by decide +kernel, by decide +kernel, by decide +kernel, by decide +kernel, by decide +kernel, by decide +kernel,
    by decide +kernel, by decide +kernel, by decide +kernel, symbols_of (all_bufs (by decide +kernel) (by decide +kernel)),
    by decide +kernel, by decide +kernel, by decide +kernel⟩

theorem coreInv_planning : CoreInv planning :=
  ⟨by decide +kernel, by decide +kernel, by decide +kernel, by decide +kernel, by decide +kernel, by decide +kernel,
    by decide +kernel, by decide +kernel, by decide +kernel, symbols_of (all_bufs (by decide +kernel) (by decide +kernel)),
    by decide +kernel, by decide +kernel, by decide +kernel⟩

theorem coreInv_planningLate : CoreInv planningLate :=
  have h := coreInv_planning
  ⟨h.noIssue, h.cyc, h.idx, h.idxUnit, h.ident, h.mask, h.pending, h.srLow, h.memWf, h.symbols, h.differ, h.window,
    h.planned⟩

theorem announced_waiting : Announced waiting :=
  ⟨by decide +kernel, by decide +kernel, fun _ _ => ⟨by decide +kernel, by unfold Coded; decide +kernel⟩⟩

theorem announced_planning : Announced planning :=
  ⟨by decide +kernel, by decide +kernel, fun _ h => absurd h (by decide +kernel)⟩

theorem announced_planningLate : Announced planningLate :=
  ⟨by decide +kernel, by decide +kernel, fun _ h => absurd h (by decide +kernel)⟩

theorem witness_UnassignedCodesRefused :
    (0b01111 = 0b01111 ∨ 0b01111 = 0b10111) ∧ (0b11010 ≤ 26 ∧ 26 < 32) ∧ (0b11010 ≤ 31 ∧ 31 < 32) ∧ 32 ≤ 32 := by
  decide

theorem witness_StepRunsDecoded :
    (s0.fetch = .op ⟨0b10000, .none⟩ ∧ decode ⟨0b10000, .none⟩ = .ok .seqBoot) ∧
    ∃ s : State, s.rst = false ∧ s.issue = some ⟨0b00001, .bit 1⟩ ∧ decode ⟨0b00001, .bit 1⟩ = .ok (.crc32Bit 1) :=
  ⟨⟨rfl, rfl⟩, { s0 with issue := some ⟨0b00001, .bit 1⟩ }, rfl, rfl, rfl⟩

theorem witness_StateSelectsStep :
    (∃ s : State, s.rst = false ∧ s.issue = none ∧ s.turn = .tick) ∧
    ∀ st : SeqState, (at' st).rst = false ∧ (at' st).issue = none ∧ (at' st).turn = .seq ∧ (at' st).st = st :=
  ⟨⟨{ s0 with turns := [.tick] }, rfl, rfl, rfl⟩, fun _ => ⟨rfl, rfl, rfl, rfl⟩⟩

theorem witness_OutsideMovesDriveInputsOnly :
    (∃ s : State, s.issue = none ∧ s.turn = .phy true false) ∧ ∃ s : State, s.issue = none ∧ s.turn = .jitter 15 :=
  ⟨⟨{ s0 with turns := [.phy true false] }, rfl, rfl⟩, { s0 with turns := [.jitter 15] }, rfl, rfl⟩

theorem witness_ResetHoldsAgents :
    (∃ s : State, s.rst = true ∧ s.turn = .seq) ∧ (∃ s : State, s.rst = true ∧ s.turn = .tick) ∧
    (∃ s : State, s.rst = true ∧ s.turn = .rst false) ∧ ∃ s : State, s.issue = none ∧ s.turn = .rst true :=
  ⟨⟨{ s0 with rst := true }, rfl, rfl⟩, ⟨{ s0 with rst := true, turns := [.tick] }, rfl, rfl⟩,
    ⟨{ s0 with rst := true, turns := [.rst false] }, rfl, rfl⟩, { s0 with turns := [.rst true] }, rfl, rfl⟩

theorem witness_Crc8ByteShiftsEightTimes : ({ s0 with acc8 := 0xFF } : State).acc8 ^^^ 0xFF = 0 := by decide +kernel

theorem witness_FrmConstWritesConstantRegions : booted.mem.wf = true := by decide +kernel

theorem witness_IdentityDependsOnIdentifierAlone : s0.uid = drain.uid ∧ s0.mem ≠ drain.mem := by decide +kernel

theorem witness_TsBuildUsesLowEpochNibble :
    (0x0004 : Half).toNat % 16 = (0xFFF4 : Half).toNat % 16 ∧ (0x000F : Half).toNat % 16 = (0x001F : Half).toNat % 16 := by
  decide

theorem witness_SeqBootFramesBothBuffers : s0.st = .boot := rfl
theorem witness_TxBeginMasksInterrupt : booted.st = .txBegin := rfl

/-- At the first and at the last unit of a frame. -/
theorem witness_TxUnitSendsNextUnit :
    (drain.st = .txUnit ∧ drain.phyReady = true ∧ drain.idx.toNat = 0 ∧ drain.mem.byte? drain.sel 0 = some 0xAA) ∧
    ∃ s : State, s.st = .txUnit ∧ s.phyReady = true ∧ s.idx.toNat = 103 ∧ s.mem.byte? s.sel s.idx.toNat = some 0xAA :=
  ⟨by decide +kernel, { drain with idx := 103 }, by decide +kernel⟩

theorem witness_StopsAreNamed :
    (∃ s : State, s.st = .txUnit ∧ s.phyReady = true ∧ s.idx.toNat = 103 ∧ s.mem.byte? s.sel s.idx.toNat = none) ∧
    (∃ s : State, s.st = .txUnit ∧ s.phyReady = true ∧ s.idx.toNat = 104) ∧
    ∃ s : State, s.st = .planSnap ∧ s.jitterIn.toNat = 10 :=
  ⟨⟨{ at' .txUnit with idx := 103 }, by decide +kernel⟩, ⟨{ at' .txUnit with idx := 104 }, by decide +kernel⟩,
    { at' .planSnap with jitterIn := 10 }, by decide +kernel⟩

theorem witness_TxEndLiftsMaskAndCounts : (at' .txEnd).st = .txEnd ∧ (at' .txEnd).phyBusy = false := by decide +kernel

/-- Also of DeadlineLiesInWindow: the draw 9 at the wrap of `cyc`, on both sides of the wrap test. -/
theorem witness_PlanSnapSetsDeadlineAndEpoch :
    (∃ s : State, s.st = .planSnap ∧ s.jitterIn.toNat = 9 ∧ s.cyc.toNat = 666 ∧ s.tickCnt.toNat + s.jitterIn.toNat = 65526) ∧
    (∃ s : State, s.st = .planSnap ∧ s.jitterIn.toNat = 9 ∧ s.cyc.toNat = 666 ∧ s.tickCnt.toNat + s.jitterIn.toNat = 65525) ∧
    ∃ s : State, s.st = .planSnap ∧ s.jitterIn.toNat = 0 ∧ s.cyc.toNat = 665 :=
  ⟨⟨{ at' .planSnap with cyc := 666, tickCnt := 0xFFED }, by decide +kernel⟩,
    ⟨{ at' .planSnap with cyc := 666, tickCnt := 0xFFEC }, by decide +kernel⟩,
    { at' .planSnap with cyc := 665, jitterIn := 0 }, by decide +kernel⟩

theorem witness_DeadlineLiesInWindow :
    (at' .planSnap).st = .planSnap ∧ (at' .planSnap).jitterIn.toNat = 9 := by decide +kernel

theorem witness_PlanBuildSelectsNextBuffer :
    ((at' .planBuild).st = .planBuild ∧ (at' .planBuild).nxtSync = false) ∧
    planning.st = .planBuild ∧ planning.nxtSync = true := by decide +kernel

/-- Also of TimeSyncBeaconTellsTheTruth's own hypotheses on `st` and the counter. -/
theorem witness_WaitLeavesAtDeadline : waiting.st = .wait ∧ waiting.tickCnt = waiting.deadline := by decide +kernel

theorem witness_StuckStepsChangeNothing :
    s0.st ≠ .txBegin ∧ s0.st ≠ .txUnit ∧ s0.st ≠ .txEnd ∧ s0.st ≠ .planSnap ∧ s0.st ≠ .planBuild ∧ s0.st ≠ .wait ∧
    booted.st ≠ .boot ∧ ({ drain with phyReady := false } : State).phyReady = false ∧
    ({ at' .txEnd with phyBusy := true } : State).phyBusy = true ∧
    ({ waiting with tickCnt := 0x000A } : State).tickCnt ≠ 0x000B ∧
    (waiting.st = .wait ∧ waiting.tickCnt = waiting.deadline) := by decide +kernel

theorem witness_TickAdvCountsAndRaises :
    (¬ (s0.st = .wait ∧ s0.tickCnt = s0.deadline) ∧ s0.tickCnt ≠ 0xFFFF) ∧
    (∃ s : State, ¬ (s.st = .wait ∧ s.tickCnt = s.deadline) ∧ s.tickCnt = 0xFFFF ∧ s.irqMask = false) ∧
    ∃ s : State, ¬ (s.st = .wait ∧ s.tickCnt = s.deadline) ∧ s.tickCnt = 0xFFFF ∧ s.irqMask = true :=
  ⟨by decide +kernel, ⟨{ waiting with tickCnt := 0xFFFF }, by decide +kernel⟩,
    { drain with tickCnt := 0xFFFF }, by decide +kernel⟩

theorem witness_SecondWrapInDrainIsLost :
    ∃ s : State, s.st = .txEnd ∧ s.phyBusy = false ∧ s.irqMask = true ∧ s.tickCnt = 0xFFFF ∧ s.ovfPending = true :=
  ⟨{ at' .txEnd with irqMask := true, tickCnt := 0xFFFF, ovfPending := true }, by decide +kernel⟩

/-- TICK's turn at a wrap in a drain, nothing latched yet; and TX.END with a wrap latched and the counter at the next
wrap, which P_DRAIN admits: the drain saw one wrap. -/
theorem witness_NoIncrementLost :
    (∃ s : State, CoreInv s ∧ DrainInTime s ∧ s.resets = false ∧ s.ticks = true ∧
      ∃ t, step s = .next t ∧ t.ovfPending = true) ∧
    ∃ s : State, CoreInv s ∧ DrainInTime s ∧ s.resets = false ∧ s.ovfPending = true ∧ s.tickCnt = 0xFFFF ∧
      ∃ t, step s = .next t ∧ t.epoch = s.epoch + 1 := by
  have h := coreInv_drain
  refine ⟨⟨{ drain with turns := [.tick], tickCnt := 0xFFFF }, ?_, ?_, by decide +kernel, by decide +kernel,
    next_of (f := (·.ovfPending)) (by decide +kernel)⟩,
    { drain with st := .txEnd, ovfPending := true, tickCnt := 0xFFFF }, ?_, ?_, by decide +kernel, rfl, rfl,
    next_of (f := (·.epoch)) (by decide +kernel)⟩
  · exact ⟨h.noIssue, h.cyc, h.idx, h.idxUnit, h.ident, h.mask, h.pending, h.srLow, h.memWf, h.symbols, h.differ,
      h.window, h.planned⟩
  · unfold DrainInTime; decide +kernel
  · exact ⟨h.noIssue, h.cyc, h.idx, by simp, h.ident, by decide +kernel, by decide +kernel, h.srLow, h.memWf, h.symbols,
      h.differ, h.window, by decide +kernel⟩
  · unfold DrainInTime; decide +kernel

theorem witness_CoreInvKeptByStep : CoreInv drain ∧ ∃ t, step drain = .next t ∧ t.idx = 1 :=
  ⟨coreInv_drain, next_of (f := (·.idx)) (by decide +kernel)⟩

theorem witness_FrameInvKeptByStep : FrameInv drain ∧ ∃ t, step drain = .next t ∧ t.idx = 1 :=
  ⟨frameInv_drain, witness_CoreInvKeptByStep.2⟩

theorem witness_NoFaultUnderInvariants : CoreInv drain ∧ FrameInv drain := ⟨coreInv_drain, frameInv_drain⟩

/-- TICK's turn in PLAN_BUILD of a time-sync frame; PLAN.BUILD itself, nine ticks after the PLAN.SNAP. -/
theorem witness_AnnouncedKeptByStep :
    (CoreInv planning ∧ Announced planning ∧ PlanInTime planning ∧
      ∃ t, step planning = .next t ∧ t.tickCnt = 0xFFFB) ∧
    CoreInv planningLate ∧ Announced planningLate ∧ PlanInTime planningLate ∧
      (planningLate.tickCnt - planningLate.now).toNat = 9 ∧
      ∃ t, step planningLate = .next t ∧ t.st = .wait ∧ t.sel = .ts := by
  refine ⟨⟨coreInv_planning, announced_planning, by unfold PlanInTime; decide +kernel,
    next_of (f := (·.tickCnt)) (by decide +kernel)⟩, coreInv_planningLate, announced_planningLate,
    by unfold PlanInTime; decide +kernel, by decide +kernel, ?_⟩
  obtain ⟨t, ht, hf⟩ := next_of (o := step planningLate) (f := fun t => (t.st, t.sel)) (v := (.wait, .ts))
    (by decide +kernel)
  exact ⟨t, ht, congrArg (·.1) hf, congrArg (·.2) hf⟩

theorem witness_TimeSyncBeaconTellsTheTruth :
    CoreInv waiting ∧ Announced waiting ∧ waiting.st = .wait ∧ waiting.nxtSync = true ∧
      waiting.tickCnt = waiting.deadline :=
  ⟨coreInv_waiting, announced_waiting, by decide +kernel⟩

/-- A PLAN.SNAP from the last count of the cycle, and a step that is none. -/
theorem witness_OnlyPlanSnapAdvancesCycle :
    (∃ s : State, s.cyc.toNat = 666 ∧ s.resets = false ∧ s.snaps = true ∧ ∃ t, step s = .next t ∧ t.cyc = 0) ∧
    drain.cyc.toNat ≤ 666 ∧ drain.resets = false ∧ drain.snaps = false ∧ ∃ t, step drain = .next t ∧ t.idx = 1 :=
  ⟨⟨{ at' .planSnap with cyc := 666 }, by decide +kernel, by decide +kernel, by decide +kernel,
    next_of (f := (·.cyc)) (by decide +kernel)⟩, by decide +kernel, by decide +kernel, by decide +kernel,
    next_of (f := (·.idx)) (by decide +kernel)⟩

/-- A PLAN.SNAP from the last count of the cycle. -/
theorem witness_CadenceOfTimeSync : ∃ s t : State, Run 1 s t ∧ s.cyc.toNat = 666 :=
  ⟨{ at' .planSnap with cyc := 666 }, _, .plan (.start _) (by decide +kernel) rfl, by decide +kernel⟩

/-- PLAN.BUILD of a time-sync frame. -/
theorem witness_SelectedKeptByStep :
    ∃ s : State, Selected s ∧ s.st = .planBuild ∧ s.nxtSync = true ∧ ∃ t, step s = .next t ∧ t.sel = .ts :=
  ⟨{ at' .planBuild with nxtSync := true }, ⟨rfl, fun h => absurd rfl h⟩, rfl, rfl,
    next_of (f := (·.sel)) (by decide +kernel)⟩

theorem witness_LedShowsNextFrame :
    (at' .planSnap).resets = false ∧ ∃ t, step (at' .planSnap) = .next t ∧ t.led = true :=
  ⟨by decide +kernel, next_of (f := (·.led)) (by decide +kernel)⟩

/-- The last unit of a second frame. -/
def lastUnit : State :=
  { drain with
    idx := 103
    line := [frameOf s0.pre (refCodeword (BitVec.ofNat 24 (refIdentity s0.uid)))].flatten ++
      (List.range 103).map fun i => (framed.byte? .id i).getD 0 }

theorem coreInv_lastUnit : CoreInv lastUnit :=
  have h := coreInv_drain
  ⟨h.noIssue, h.cyc, by decide +kernel, by decide +kernel, h.ident, h.mask, h.pending, h.srLow, h.memWf, h.symbols,
    h.differ, h.window, h.planned⟩

theorem frameInv_lastUnit : FrameInv lastUnit :=
  have h := frameInv_drain
  ⟨h.noIssue, h.bootSel, h.ident, h.idConst, h.idCoded, h.tsConst, h.tsCoded⟩

theorem lineInv_lastUnit : LineInv lastUnit :=
  ⟨⟨[_], fun _ hf => .inl (List.mem_singleton.mp hf), rfl⟩, by decide +kernel⟩

theorem witness_LineIsWholeBeacons :
    CoreInv lastUnit ∧ FrameInv lastUnit ∧ LineInv lastUnit ∧ lastUnit.resets = false ∧
      ∃ t, step lastUnit = .next t ∧ t.line.length = 208 :=
  ⟨coreInv_lastUnit, frameInv_lastUnit, lineInv_lastUnit, by decide +kernel,
    next_of (f := (·.line.length)) (by decide +kernel)⟩

theorem witness_DrainSendsWholeFrame :
    drain.st = .txUnit ∧ drain.idx = 0 ∧ drain.phyReady = true ∧
      ∀ i, i < 104 → drain.mem.byte? drain.sel i = some ((drain.mem.byte? drain.sel i).getD 0) := by decide +kernel

/-- With 17 ticks to go across a wrap. -/
theorem witness_WaitEndsAtDeadline :
    ∃ s : State, s.st = .wait ∧ s.tickCnt = 0xFFFA ∧ (s.deadline - s.tickCnt).toNat = 17 :=
  ⟨{ waiting with tickCnt := 0xFFFA }, by decide +kernel⟩

/-- A step of each of the three kinds that change the epoch. -/
theorem witness_EpochOnlyByHandler :
    (∃ s t : State, s.resets = false ∧ step s = .next t ∧ t.epoch = 1 ∧ s.fetch = .op ⟨0b11000, .none⟩) ∧
    (∃ s t : State, s.resets = false ∧ step s = .next t ∧ t.epoch = 1 ∧ s.fetch = .op ⟨0b10011, .none⟩) ∧
    ∃ s t : State, s.resets = false ∧ step s = .next t ∧ t.epoch = 1 ∧ s.fetch = .op ⟨0b11001, .none⟩ :=
  ⟨⟨{ s0 with turns := [.tick], tickCnt := 0xFFFF }, _, by decide +kernel, rfl, by decide +kernel, rfl⟩,
    ⟨{ at' .txEnd with irqMask := true, ovfPending := true }, _, by decide +kernel, rfl, by decide +kernel, rfl⟩,
    { s0 with issue := some ⟨0b11001, .none⟩ }, _, by decide +kernel, rfl, by decide +kernel, rfl⟩

/-- A step that sets the mask and one that clears it. -/
theorem witness_MaskOnlyByDrain :
    (∃ s t : State, s.resets = false ∧ step s = .next t ∧ s.irqMask = false ∧ t.irqMask = true) ∧
    ∃ s t : State, s.resets = false ∧ step s = .next t ∧ s.irqMask = true ∧ t.irqMask = false :=
  ⟨⟨at' .txBegin, _, by decide +kernel, rfl, by decide +kernel, rfl⟩,
    { at' .txEnd with irqMask := true }, _, by decide +kernel, rfl, by decide +kernel, rfl⟩

theorem witness_LineGrowsByTxUnitOnly : ∃ t, step drain = .next t ∧ t.line = [0xAA] :=
  next_of (f := (·.line)) (by decide +kernel)

theorem witness_BuffersUntouchedDuringDrain :
    (drain.issue = none ∧ drain.resets = false ∧ drain.st = .txUnit ∧ (nextState? (step drain)).isSome) ∧
    ∃ s t : State, s.issue = none ∧ s.resets = false ∧ s.st = .txEnd ∧ step s = .next t :=
  ⟨by decide +kernel, at' .txEnd, _, rfl, by decide +kernel, rfl, rfl⟩

/-- The step that writes the other buffer. -/
theorem witness_IdentityBeaconImmutable :
    ∃ s t : State, s.issue = none ∧ s.resets = false ∧ s.st = .planBuild ∧ s.nxtSync = true ∧ step s = .next t :=
  ⟨{ at' .planBuild with nxtSync := true }, _, rfl, by decide +kernel, rfl, rfl, rfl⟩

theorem witness_UidReadOnceAtStartup : drain.issue = none ∧ drain.st ≠ .boot := by decide +kernel

/-! ### The fairness premises are met together -/

/-- SEQ alone, from the last unit of a drain into the next wait, with PHY ready and idle throughout. -/
def alone : Nat → State
  | 0 => { drain with idx := 103 }
  | n + 1 => (nextState? (step { alone n with turns := [.seq] })).getD (alone n)

theorem alone_waits (n : Nat) : alone (n + 4) = alone 4 := by
  have h : alone 5 = alone 4 := by decide +kernel
  induction n with
  | zero => rfl
  | succ n ih => rw [← h]; show (nextState? (step { alone (n + 4) with turns := [.seq] })).getD (alone (n + 4)) = _
                 rw [ih]; rfl

/-- What is true of the first five states, and of nothing else but the state, is true of all. -/
theorem alone_all {p : State → Prop} (h : ∀ n, n < 5 → p (alone n)) (n : Nat) : p (alone n) := by
  rcases Nat.lt_or_ge n 5 with hn | hn
  · exact h n hn
  · obtain ⟨k, rfl⟩ : ∃ k, n = k + 4 := ⟨n - 4, by omega⟩
    rw [alone_waits]; exact h 4 (by decide)

theorem witness_drain_ends :
    Behaviour (fun _ => .seq) alone ∧ SeqFair (fun _ => .seq) alone ∧ PhyLive (fun _ => .seq) alone ∧
      (alone 0).st = .txUnit ∧ (alone 1).st = .txEnd := by
  have hstep : ∀ n, (nextState? (step { alone n with turns := [.seq] })).isSome = true :=
    alone_all (p := fun s => (nextState? (step { s with turns := [.seq] })).isSome = true) (by decide +kernel)
  refine ⟨⟨fun n => ?_, alone_all (p := fun s => s.issue = none) (by decide +kernel),
    alone_all (p := fun s => s.rst = false) (by decide +kernel)⟩, fun n => ⟨n, Nat.le_refl n, fun _ => rfl⟩,
    ⟨fun n _ => ⟨n, Nat.le_refl n, fun k _ _ => alone_all (p := fun s => s.phyReady = true) (by decide +kernel) k⟩,
     fun n _ => ⟨n, Nat.le_refl n, fun k _ _ => alone_all (p := fun s => s.phyBusy = false) (by decide +kernel) k⟩⟩,
    by decide +kernel, by decide +kernel⟩
  have h := hstep n
  show _ = Host.Outcome.next ((nextState? (step { alone n with turns := [.seq] })).getD (alone n))
  generalize step { alone n with turns := [.seq] } = o at h
  cases o with
  | next t => rfl
  | fault r => cases h
  | refused r => cases h

end Sys2Proof.Tests
end

section
/-! PROOFS. The checksum obligations (40_checksum.md R80, R85, R86): what each operation leaves, then its statement. -/

namespace Sys2Proof.Machine

theorem exec_crc32Clr (s : State) : exec .crc32Clr s = .next { s with acc32 := init32 } := rfl

theorem exec_crc8Clr (s : State) : exec .crc8Clr s = .next { s with acc8 := init8 } := rfl

theorem exec_crc8Byte (b : Byte) (s : State) :
    exec (.crc8Byte b) s = .next { s with acc8 := refCrc8Byte s.acc8 b } :=
  congrArg Host.Outcome.next (s.crc8Byte_eq b)

/-- A shift of zero shifts a 0 out, so the polynomial stays away. -/
@[simp] theorem refCrc8Shift_zero : refCrc8Shift 0 = 0 := rfl

@[simp] theorem repeat_refCrc8Shift_zero : (n : Nat) → Nat.repeat refCrc8Shift n 0 = 0
  | 0 => rfl
  | n + 1 => by rw [Nat.repeat, repeat_refCrc8Shift_zero n, refCrc8Shift_zero]

/-- R86's corner case: a byte that cancels the accumulator leaves it 0. -/
theorem refCrc8Byte_of_xor_eq_zero {acc : BitVec 8} {b : Byte} (h : acc ^^^ b = 0) : refCrc8Byte acc b = 0 := by
  rw [refCrc8Byte, h, repeat_refCrc8Shift_zero]

/-- Settles O9: the model's initial values are R80's and R85's constants. -/
theorem clearsSetAllOnes : Obligations.ClearsSetAllOnes :=
  fun s => ⟨exec_crc32Clr s, exec_crc8Clr s⟩

/-- Settles O12: the model's loop is the reference form's, and zero is a fixed point of its shift. -/
theorem crc8ByteShiftsEightTimes : Obligations.Crc8ByteShiftsEightTimes := fun b s =>
  ⟨exec_crc8Byte b s, fun h => by rw [exec_crc8Byte, refCrc8Byte_of_xor_eq_zero h]⟩

end Sys2Proof.Machine
end

section
/-! PROOFS. The encoder obligation (41_fec_encoder.md R102, R103): what ENC.WORD leaves in each field and byte. -/

namespace Sys2Proof.Machine

theorem exec_encWord (b : BufSel) (w : Codeword) (s : State) : exec (.encWord b w) s = .next (s.encWord b w) := rfl

/-- Beyond `mem`, ENC.WORD writes only `sr`, which the flush bits leave with w's last bit in bit 8 (R103). -/
theorem State.encWord_eq (s : State) (b : BufSel) (w : Codeword) :
    s.encWord b w =
      { s with sr := if w.toNat % 2 = 0 then 0x000 else 0x100, mem := (s.encWord b w).mem } := by
  rw [← encRegister_drained]; exact (s.encWord_spec b w).1

/-- R102: offsets 20 to 99 hold the 80 symbols of w. -/
theorem State.encWord_coded (s : State) (b : BufSel) (w : Codeword) : Coded (s.encWord b w).mem b w :=
  (s.encWord_spec b w).2.coded

/-- R102: no byte outside the codeword region of the named buffer changes. -/
theorem State.encWord_kept (s : State) {b c : BufSel} (w : Codeword) {i : Nat} (h : c ≠ b ∨ i < 20 ∨ 100 ≤ i) :
    (s.encWord b w).mem.byte? c i = s.mem.byte? c i :=
  (s.encWord_spec b w).2.kept c i h

/-- Settles O17: after forty steps every symbol is emitted, and the register is drained of all but w's last bit. -/
theorem encWordWritesCodeSymbols : Obligations.EncWordWritesCodeSymbols := fun b w s =>
  ⟨s.encWord b w, exec_encWord b w s, s.encWord_eq b w, s.encWord_coded b w, fun _ _ h => s.encWord_kept w h⟩

end Sys2Proof.Machine
end

section
/-! PROOFS. The framer obligations (42_framer.md R110, R111): FRM.CONST leaves a framed buffer as it is, and FRM.CODE is
ENC.WORD. -/

namespace Sys2Proof.Machine

theorem exec_frmConst (b : BufSel) (s : State) : exec (.frmConst b) s = .next (s.frmConst b) := rfl

theorem exec_frmCode (b : BufSel) (w : Codeword) (s : State) : exec (.frmCode b w) s = exec (.encWord b w) s := rfl

/-- The constant regions of one preamble read the same in every memory that holds them. -/
theorem ConstFramed.byte?_eq {m m' : Memory} {pre : Vector Symbol 16} {b : BufSel} (h : ConstFramed m pre b)
    (h' : ConstFramed m' pre b) {i : Nat} (hi : i < 20 ∨ 100 ≤ i ∧ i < 104) : m'.byte? b i = m.byte? b i := by
  obtain ⟨train, preamble, trail⟩ := h
  obtain ⟨train', preamble', trail'⟩ := h'
  rcases hi with hlow | ⟨hlo, hhi⟩
  · rcases Nat.lt_or_ge i 4 with h4 | h4
    · rw [train i h4, train' i h4]
    · obtain ⟨k, rfl⟩ := Nat.exists_eq_add_of_le h4
      exact (preamble' ⟨k, by omega⟩).trans (preamble ⟨k, by omega⟩).symm
  · rw [trail i hlo hhi, trail' i hlo hhi]

/-- Where the constant regions already stood, FRM.CONST changes no byte of either buffer. -/
theorem Framed.byte?_eq {m m' : Memory} {pre : Vector Symbol 16} {b : BufSel} (f : Framed m m' pre b)
    (h : ConstFramed m pre b) (c : BufSel) (i : Nat) : m'.byte? c i = m.byte? c i := by
  by_cases hout : c ≠ b ∨ 20 ≤ i ∧ i < 100 ∨ 104 ≤ i
  · exact f.kept c i hout
  · obtain ⟨hcb, hi⟩ := not_or.mp hout
    obtain rfl := not_not.mp hcb
    exact h.byte?_eq f.const (by omega)

/-- R110's corner case: on a buffer framed already FRM.CONST changes nothing. -/
theorem State.frmConst_of_constFramed {s : State} {b : BufSel} (hw : s.mem.wf = true)
    (h : ConstFramed s.mem s.pre b) : s.frmConst b = s := by
  obtain ⟨heq, hf⟩ := s.frmConst_spec b
  have hmem : (s.frmConst b).mem = s.mem := Memory.ext_of_wf (hf.wf hw) hw (hf.byte?_eq h)
  rw [heq, hmem]

/-- Settles O19: a first FRM.CONST frames the buffer and keeps PRE, so a second one finds it framed. -/
theorem frmConstWritesConstantRegions : Obligations.FrmConstWritesConstantRegions := by
  intro b s
  obtain ⟨heq, hf⟩ := s.frmConst_spec b
  have hconst : ConstFramed (s.frmConst b).mem (s.frmConst b).pre b := by rw [heq]; exact hf.const
  refine ⟨s.frmConst b, exec_frmConst b s, heq, hf.const, hf.kept, fun hw => ?_⟩
  rw [exec_frmConst, State.frmConst_of_constFramed (hf.wf hw) hconst]

/-- Settles O20: FRM.CODE is ENC.WORD, so it leaves what `encWordWritesCodeSymbols` says. -/
theorem frmCodeReplacesCodeRegion : Obligations.FrmCodeReplacesCodeRegion := by
  intro b w s
  obtain ⟨t, hexec, heq, hcoded, hkept⟩ := encWordWritesCodeSymbols b w s
  exact ⟨t, (exec_frmCode b w s).trans hexec, hexec, heq, hcoded, hkept⟩

end Sys2Proof.Machine
end

section
/-! PROOFS. The scheduler obligations (44_scheduler.md R132, R139): TX.BEGIN's enabled step, and the tick interrupt
counted as a number. -/

namespace Sys2Proof.Machine

theorem execTxBegin_of {s : State} (h : s.st = .txBegin) :
    execTxBegin s = .next { s with irqMask := true, idx := 0, st := .txUnit } := by
  rw [execTxBegin, h, beq_self_eq_true, whenEnabled_true]

theorem exec_txBegin (s : State) : exec .txBegin s = execTxBegin s := rfl

theorem exec_epochInc (s : State) : exec .epochInc s = .next s.takeTickInterrupt := rfl

/-- One more on a 16-bit counter is the increment modulo 65536, the wrap of 0xFFFF to 0 included. -/
theorem half_add_one_eq_ofNat (x : BitVec 16) : x + 1 = BitVec.ofNat 16 ((x.toNat + 1) % 65536) :=
  BitVec.eq_of_toNat_eq (by simp [BitVec.toNat_add])

/-- Taking the tick interrupt, with the epoch read as a number. -/
theorem State.takeTickInterrupt_eq_ofNat (s : State) : s.takeTickInterrupt =
    { s with epoch := BitVec.ofNat 16 ((s.epoch.toNat + 1) % 65536), ovfPending := false } := by
  rw [← half_add_one_eq_ofNat, takeTickInterrupt]

/-- Settles O28: in TX_BEGIN the step's one guard holds, so its effect runs. -/
theorem txBeginMasksInterrupt : Obligations.TxBeginMasksInterrupt :=
  fun s h => (exec_txBegin s).trans (execTxBegin_of h)

/-- Settles O38: EPOCH.INC has no guard, and is the taking of the tick interrupt. -/
theorem epochIncCountsOnce : Obligations.EpochIncCountsOnce := fun s => by
  rw [exec_epochInc, State.takeTickInterrupt_eq_ofNat]

end Sys2Proof.Machine
end

section
/-! PROOFS. The decoder (30_encoding.md R69 to R72): each row of the table reads exactly its own instruction's words,
so decode and encode are inverse, and the codes without a row are refused. -/

namespace Sys2Proof

/-- The row reads an operand only as an instruction whose word is the row's code with that operand. -/
def OpRow.Sound (r : OpRow) : Prop := ∀ a i, r.read a = some i → encode i = ⟨r.code, a⟩

/-- The row reads every operand of the kind of its zero operand. -/
def OpRow.Complete (r : OpRow) : Prop := ∀ a, a.kind = r.zero.kind → ∃ i, r.read a = some i

section rows
variable {c : Nat}

theorem readNone_row {i : Instr} (h : encode i = ⟨c, .none⟩) :
    OpRow.Sound ⟨c, .none, readNone i⟩ ∧ OpRow.Complete ⟨c, .none, readNone i⟩ := by
  constructor <;> intro a <;> cases a <;> simp [readNone, Operand.kind, h]

theorem readBit_row {d : Bit} {f : Bit → Instr} (h : ∀ x, encode (f x) = ⟨c, .bit x⟩) :
    OpRow.Sound ⟨c, .bit d, readBit f⟩ ∧ OpRow.Complete ⟨c, .bit d, readBit f⟩ := by
  constructor <;> intro a <;> cases a <;> simp [readBit, Operand.kind, h]

theorem readByte_row {b : Byte} {f : Byte → Instr} (h : ∀ x, encode (f x) = ⟨c, .byte x⟩) :
    OpRow.Sound ⟨c, .byte b, readByte f⟩ ∧ OpRow.Complete ⟨c, .byte b, readByte f⟩ := by
  constructor <;> intro a <;> cases a <;> simp [readByte, Operand.kind, h]

theorem readBuf_row {b : BufSel} {f : BufSel → Instr} (h : ∀ x, encode (f x) = ⟨c, .buf x⟩) :
    OpRow.Sound ⟨c, .buf b, readBuf f⟩ ∧ OpRow.Complete ⟨c, .buf b, readBuf f⟩ := by
  constructor <;> intro a <;> cases a <;> simp [readBuf, Operand.kind, h]

theorem readBufWord_row {b : BufSel} {w : Codeword} {f : BufSel → Codeword → Instr}
    (h : ∀ x y, encode (f x y) = ⟨c, .bufWord x y⟩) :
    OpRow.Sound ⟨c, .bufWord b w, readBufWord f⟩ ∧ OpRow.Complete ⟨c, .bufWord b w, readBufWord f⟩ := by
  constructor <;> intro a <;> cases a <;> simp [readBufWord, Operand.kind, h]

theorem readPayload_row {p : Payload} {f : Payload → Instr} (h : ∀ x, encode (f x) = ⟨c, .payload x⟩) :
    OpRow.Sound ⟨c, .payload p, readPayload f⟩ ∧ OpRow.Complete ⟨c, .payload p, readPayload f⟩ := by
  constructor <;> intro a <;> cases a <;> simp [readPayload, Operand.kind, h]

theorem readTimes_row {d e : Half} {f : Half → Half → Instr} (h : ∀ x y, encode (f x y) = ⟨c, .times x y⟩) :
    OpRow.Sound ⟨c, .times d e, readTimes f⟩ ∧ OpRow.Complete ⟨c, .times d e, readTimes f⟩ := by
  constructor <;> intro a <;> cases a <;> simp [readTimes, Operand.kind, h]

end rows

/-- Every row of R69's table is a reader of its own words. -/
theorem opRows_sound_complete : ∀ r ∈ opRows, r.Sound ∧ r.Complete := by
  simp only [opRows, List.cons_append, List.nil_append, List.forall_mem_cons]
  exact ⟨readNone_row rfl, readBit_row fun _ => rfl, readByte_row fun _ => rfl, readNone_row rfl, readNone_row rfl,
    readByte_row fun _ => rfl, readNone_row rfl, readNone_row rfl, readBit_row fun _ => rfl,
    readBufWord_row fun _ _ => rfl, readBuf_row fun _ => rfl, readBufWord_row fun _ _ => rfl,
    readPayload_row fun _ => rfl, readNone_row rfl, readTimes_row fun _ _ => rfl, readNone_row rfl, readNone_row rfl,
    readNone_row rfl, readNone_row rfl, readNone_row rfl, readNone_row rfl, readNone_row rfl, readNone_row rfl,
    readNone_row rfl, fun _ h => nomatch h⟩

theorem mem_opRows_of_rowOf {code : Nat} {r : OpRow} (h : rowOf code = some r) : r ∈ opRows ∧ r.code = code :=
  ⟨List.mem_of_find?_eq_some h, by simpa using List.find?_some h⟩

/-- A word decodes exactly when its code has a row and the row reads its operand. -/
theorem decode_eq_ok_iff {x : OpWord} {i : Instr} :
    decode x = .ok i ↔ x.code < 32 ∧ ∃ r, rowOf x.code = some r ∧ r.read x.arg = some i := by
  unfold decode
  split
  · next h => simp; omega
  · next h =>
    cases rowOf x.code with
    | none => simp
    | some r => cases hr : r.read x.arg <;> simp [hr]; omega

theorem decode_encode (i : Instr) : decode (encode i) = .ok i := by cases i <;> rfl

theorem encode_injective {i j : Instr} (h : encode i = encode j) : i = j :=
  Except.ok.inj ((decode_encode i).symm.trans ((congrArg decode h).trans (decode_encode j)))

theorem encode_wellFormed (i : Instr) : (encode i).wellFormed = true := by cases i <;> rfl

/-- The table of codes and kinds, and the table of rows, are one table. -/
theorem kindOfCode_eq_rowOf : ∀ code < 32, kindOfCode code = (rowOf code).map (·.zero.kind) := by decide

theorem decode_eq_ok_iff_encode (x : OpWord) (i : Instr) : decode x = .ok i ↔ x = encode i := by
  constructor
  · intro h
    obtain ⟨-, r, hrow, hread⟩ := decode_eq_ok_iff.mp h
    obtain ⟨hmem, hcode⟩ := mem_opRows_of_rowOf hrow
    rw [(opRows_sound_complete r hmem).1 _ _ hread, hcode]
  · rintro rfl
    exact decode_encode i

theorem exists_decode_of_wellFormed {x : OpWord} (h : x.wellFormed = true) : ∃ i, decode x = .ok i := by
  simp only [OpWord.wellFormed, OpWord.fits, OpWord.kindMatches, Bool.and_eq_true, decide_eq_true_eq,
    beq_iff_eq] at h
  obtain ⟨⟨hlt, -⟩, hkind⟩ := h
  rw [kindOfCode_eq_rowOf x.code hlt, Option.map_eq_some_iff] at hkind
  obtain ⟨r, hrow, hzero⟩ := hkind
  obtain ⟨i, hread⟩ := (opRows_sound_complete r (mem_opRows_of_rowOf hrow).1).2 x.arg hzero.symm
  exact ⟨i, decode_eq_ok_iff.mpr ⟨hlt, r, hrow, hread⟩⟩

/-- Settles O3: each row reads its own instruction's words and no others, and the well-formed words are those of the
rows. -/
theorem decodeInvertsEncode : Obligations.DecodeInvertsEncode := by
  refine ⟨decode_eq_ok_iff_encode, fun x => ⟨exists_decode_of_wellFormed, ?_⟩⟩
  rintro ⟨i, hi⟩
  rw [(decode_eq_ok_iff_encode x i).mp hi]
  exact encode_wellFormed i

/-- R72 (e): the codes that name nothing have no row. -/
theorem rowOf_unassigned :
    ∀ code < 32, code = 0b01111 ∨ code = 0b10111 ∨ 0b11010 ≤ code → rowOf code = none := by
  have key : ∀ code < 32, code = 0b01111 ∨ code = 0b10111 ∨ 0b11010 ≤ code → (rowOf code).isNone := by decide
  simpa only [Option.isNone_iff_eq_none] using key

/-- Settles O4: a code without a row is refused as reserved, a number with no five bits before any row is sought. -/
theorem unassignedCodesRefused : Obligations.UnassignedCodesRefused := by
  refine fun code arg => ⟨fun h => ?_, fun h => if_pos h⟩
  have hlt : code < 32 := by omega
  have hrow : rowOf code = none := rowOf_unassigned code hlt (by omega)
  simp [decode, hrow, hlt]

/-- Settles O2: the words of the table, and 01111, decoded. -/
theorem tableWordsDecode : Obligations.TableWordsDecode := by
  simp only [Obligations.TableWordsDecode, decode_eq_ok_iff_encode, encode, true_and]
  decide

end Sys2Proof
end

section
/-! PROOFS. The checksum obligations of 40_checksum.md R81 to R84, R87, R88: one bit, one byte, the final complement, and
a whole sequence folded byte by byte. -/

namespace Sys2Proof.Machine

theorem exec_crc32Bit (d : Bit) (s : State) : exec (.crc32Bit d) s = .next (s.crc32Bit d) := rfl

theorem exec_crc32Byte (b : Byte) (s : State) :
    exec (.crc32Byte b) s = .next { s with acc32 := refCrc32Byte s.acc32 b } :=
  congrArg Host.Outcome.next (s.crc32Byte_eq b)

theorem exec_crc32Fin (s : State) : exec .crc32Fin s = .next { s with ret := .word (~~~s.acc32) } := rfl

theorem exec_crc8Fin (s : State) : exec .crc8Fin s = .next { s with ret := .byte (~~~s.acc8) } := rfl

/-- The complement of a complement, as the difference from all ones. -/
theorem allOnes_sub_not {n : Nat} (v : BitVec n) : BitVec.allOnes n - ~~~v = v := by
  rw [← not_eq_allOnes_sub, BitVec.not_not]

/-- R81, bit by bit: the shift moves a bit down, and the polynomial comes in where the sampled bit was 1. -/
theorem crc32Step_getLsbD (acc : BitVec 32) (d : Bit) (j : Nat) :
    (crc32Step acc d).getLsbD j =
      (acc.getLsbD (j + 1) ^^ ((acc.getLsbD 0 ^^ d.getLsbD 0) && (0xEDB88320#32).getLsbD j)) := by
  have hd : (d.setWidth 32).getLsbD (j + 1) = false := by
    rw [BitVec.getLsbD_setWidth, BitVec.getLsbD_of_ge d (j + 1) (by omega), Bool.and_false]
  have h0 : (d.setWidth 32).getLsbD 0 = d.getLsbD 0 := by simp
  rw [crc32Step_eq, refCrc32Shift_getLsbD, BitVec.getLsbD_xor, BitVec.getLsbD_xor, hd, h0, Bool.xor_false]

/-- Settles O10: the new accumulator is one bit step of the old one. -/
theorem crc32BitShiftsThenFolds : Obligations.Crc32BitShiftsThenFolds := fun d s =>
  ⟨s.crc32Bit d, exec_crc32Bit d s, rfl, fun j _ => crc32Step_getLsbD s.acc32 d j⟩

/-- Settles O11: the eight bit steps are R82's other form. -/
theorem crc32ByteIsXorThenEightShifts : Obligations.Crc32ByteIsXorThenEightShifts := exec_crc32Byte

/-- Settles O13: the complement is the difference from all ones. -/
theorem finalsHandBackComplement : Obligations.FinalsHandBackComplement := fun s =>
  ⟨by rw [exec_crc32Fin, not_eq_allOnes_sub]; rfl, by rw [exec_crc8Fin, not_eq_allOnes_sub]; rfl⟩

/-! ### Operations one after another -/

theorem execs_cons_of_next {i : Instr} {s t : State} (h : exec i s = .next t) (is : List Instr) :
    execs (i :: is) s = execs is t := by
  rw [execs, h]

/-- CRC32.BYTE of each byte folds the accumulator over the sequence. -/
theorem execs_crc32Byte (bytes : List Byte) (is : List Instr) (s : State) :
    execs (bytes.map .crc32Byte ++ is) s = execs is { s with acc32 := bytes.foldl refCrc32Byte s.acc32 } := by
  induction bytes generalizing s with
  | nil => rfl
  | cons b bs ih => rw [List.map_cons, List.cons_append, execs_cons_of_next (exec_crc32Byte b s), ih]; rfl

/-- CRC8.BYTE of each byte folds the accumulator over the sequence. -/
theorem execs_crc8Byte (bytes : List Byte) (is : List Instr) (s : State) :
    execs (bytes.map .crc8Byte ++ is) s = execs is { s with acc8 := bytes.foldl refCrc8Byte s.acc8 } := by
  induction bytes generalizing s with
  | nil => rfl
  | cons b bs ih => rw [List.map_cons, List.cons_append, execs_cons_of_next (exec_crc8Byte b s), ih]; rfl

theorem allOnes_sub_refCrc32 (bytes : List Byte) :
    0xFFFFFFFF - refCrc32 bytes = bytes.foldl refCrc32Byte 0xFFFFFFFF := allOnes_sub_not _

theorem allOnes_sub_refCrc8 (bytes : List Byte) : 0xFF - refCrc8 bytes = bytes.foldl refCrc8Byte 0xFF :=
  allOnes_sub_not _

/-- Settles O14: from the cleared accumulator the fold over the bytes is the reference form's. -/
theorem crc32OfByteSequence : Obligations.Crc32OfByteSequence := by
  intro bytes s
  rw [execs_cons_of_next (exec_crc32Clr s), execs_crc32Byte, execs_cons_of_next (exec_crc32Fin _),
    allOnes_sub_refCrc32]
  rfl

/-- Settles O15: from the cleared accumulator the fold over the bytes is the reference form's. -/
theorem crc8OfByteSequence : Obligations.Crc8OfByteSequence := by
  intro bytes s
  rw [execs_cons_of_next (exec_crc8Clr s), execs_crc8Byte, execs_cons_of_next (exec_crc8Fin _), allOnes_sub_refCrc8]
  rfl

end Sys2Proof.Machine
end

section
/-! PROOFS. The encoder obligations of 41_fec_encoder.md R100 to R102, R105: the symbols of one shift, and linearity. -/

namespace Sys2Proof.Machine

theorem exec_encClr (s : State) : exec .encClr s = .next { s with sr := 0 } := rfl

theorem exec_encBit (d : Bit) (s : State) :
    exec (.encBit d) s = .next { s with
      sr := encShift s.sr d, ret := .symbols (symbolA (encShift s.sr d)) (symbolB (encShift s.sr d)) } := rfl

/-- Settles O16: the register after the shift as a number, and its two symbols as parities over the taps. -/
theorem encBitEmitsTapParities : Obligations.EncBitEmitsTapParities := by
  intro d s
  refine ⟨exec_encClr s, _, exec_encBit d s, rfl, encShift_toNat s.sr d, ?_⟩
  rw [symbolA_eq, symbolB_eq]

theorem insertedBit_xor (v w : Codeword) (k : Nat) :
    insertedBit (v ^^^ w) k = (insertedBit v k ^^ insertedBit w k) := by
  unfold insertedBit
  split
  · exact BitVec.getLsbD_xor
  · rfl

/-- An exclusive or over taps of a sum is the sum of the exclusive ors, from any start. -/
theorem foldl_taps_xor (v w : Codeword) (k : Nat) (taps : List Nat) (p q : Bool) :
    taps.foldl (fun r t => r ^^ (decide (t ≤ k) && insertedBit (v ^^^ w) (k - t))) (p ^^ q) =
      (taps.foldl (fun r t => r ^^ (decide (t ≤ k) && insertedBit v (k - t))) p ^^
        taps.foldl (fun r t => r ^^ (decide (t ≤ k) && insertedBit w (k - t))) q) := by
  induction taps generalizing p q with
  | nil => rfl
  | cons t ts ih =>
    have hstep : ((p ^^ q) ^^ (decide (t ≤ k) && insertedBit (v ^^^ w) (k - t))) =
        ((p ^^ (decide (t ≤ k) && insertedBit v (k - t))) ^^ (q ^^ (decide (t ≤ k) && insertedBit w (k - t)))) := by
      rw [insertedBit_xor, Bool.and_xor_distrib_left]
      simp only [Bool.xor_assoc, Bool.xor_left_comm]
    simp only [List.foldl_cons]
    rw [hstep, ih]

theorem tapParity_xor (v w : Codeword) (taps : List Nat) (k : Nat) :
    tapParity (v ^^^ w) taps k = (tapParity v taps k ^^ tapParity w taps k) :=
  foldl_taps_xor v w k taps false false

/-- Settles O18: every symbol is a parity, and parities add. -/
theorem encoderIsLinear : Obligations.EncoderIsLinear := by
  intro b v w s
  refine ⟨_, _, _, exec_encWord b v s, exec_encWord b w s, exec_encWord b (v ^^^ w) s, fun j hj => ?_⟩
  refine ⟨_, _, s.encWord_coded b v j hj, s.encWord_coded b w j hj, ?_⟩
  rw [s.encWord_coded b (v ^^^ w) j hj, codeSymbol, tapParity_xor]

end Sys2Proof.Machine
end

section
/-! PROOFS. The builder obligations of 43_builders.md R120 to R122 and 30_encoding.md R63, R65, R66: the fields of a
codeword, and what ID.BUILD and TS.BUILD leave. -/

namespace Sys2Proof.Machine

theorem exec_cwMake (p : Payload) (s : State) :
    exec (.cwMake p) s = .next { s with
      acc8 := ~~~(refCrc8 [payloadHigh p, payloadMid p, payloadLow p]), cw := refCodeword p } :=
  congrArg Host.Outcome.next (s.cwMake_eq p)

theorem exec_idBuild (s : State) : exec .idBuild s = .next s.idBuild := rfl

theorem exec_tsBuild (d e : Half) (s : State) : exec (.tsBuild d e) s = .next (s.tsBuild d e) := rfl

/-- The low byte of a codeword is its payload's checksum (30_encoding.md R63). -/
theorem refCodeword_low (p : Payload) :
    (refCodeword p).extractLsb' 0 8 = refCrc8 [payloadHigh p, payloadMid p, payloadLow p] :=
  BitVec.extractLsb'_append_eq_right

/-- The top nibble of a codeword is its payload's. -/
theorem refCodeword_top (p : Payload) : (refCodeword p).extractLsb' 28 4 = p.extractLsb' 20 4 :=
  BitVec.extractLsb'_append_eq_of_le (by decide)

/-- Every time-sync payload has the tag 0xA on top (R65). -/
theorem refTsPayload_top (d e : Half) : (refTsPayload d e).extractLsb' 20 4 = 0xA :=
  (BitVec.extractLsb'_append_eq_of_le (by decide)).trans BitVec.extractLsb'_append_eq_left

/-- No identity payload has more than 9 on top, being below ten million (R66). -/
theorem identity_top_le (u : Vector Byte 12) :
    ((BitVec.ofNat 24 (refIdentity u)).extractLsb' 20 4).toNat ≤ 9 := by
  rw [BitVec.extractLsb'_toNat, refIdentity_toNat, Nat.shiftRight_eq_div_pow]
  have := refIdentity_le u
  omega

/-- The time-sync payload takes the low nibble of the epoch alone (R65). -/
theorem refTsPayload_congr (d : Half) {e e' : Half} (h : e.toNat % 16 = e'.toNat % 16) :
    refTsPayload d e = refTsPayload d e' := by
  have hlow : e.extractLsb' 0 4 = e'.extractLsb' 0 4 := BitVec.eq_of_toNat_eq (by simpa using h)
  rw [refTsPayload, refTsPayload, hlow]

/-- Settles O21: CW.MAKE's two registers, the complement read as the difference from all ones. -/
theorem cwMakeAppendsChecksum : Obligations.CwMakeAppendsChecksum := fun p s => by
  rw [exec_cwMake, not_eq_allOnes_sub]; rfl

theorem State.idBuild_ident (s : State) : s.idBuild.ident = BitVec.ofNat 24 (refIdentity s.uid) := by
  rw [s.idBuild_spec.1]

theorem State.idBuild_cw (s : State) : s.idBuild.cw = refCodeword (BitVec.ofNat 24 (refIdentity s.uid)) := by
  rw [s.idBuild_spec.1]

/-- Settles O22: what `State.idBuild_spec` says of each register and byte. -/
theorem idBuildFramesIdentity : Obligations.IdBuildFramesIdentity := by
  intro s
  obtain ⟨heq, hconst, hcoded, hkept, -⟩ := s.idBuild_spec
  have hident := s.idBuild_ident
  have hcw : s.idBuild.cw = refCodeword s.idBuild.ident := by rw [s.idBuild_cw, hident]
  refine ⟨s.idBuild, exec_idBuild s, by rw [heq], ?_, ?_, hcw, ?_, hconst, ?_, fun i hi => hkept .id i (.inr hi),
    fun i => hkept .ts i (.inl (by decide))⟩
  · rw [heq]; exact allOnes_sub_not _
  · rw [hident, refIdentity_toNat]
  · rw [hcw, refCodeword_low, heq]; exact allOnes_sub_not _
  · rw [hcw, hident]; exact hcoded

/-- Settles O23: both registers are functions of the identifier, and the remainder bounds the identity. -/
theorem identityDependsOnIdentifierAlone : Obligations.IdentityDependsOnIdentifierAlone := by
  intro s s' huid
  refine ⟨_, _, exec_idBuild s, exec_idBuild s', ?_, ?_, ?_⟩
  · rw [s.idBuild_ident, s'.idBuild_ident, huid]
  · rw [s.idBuild_cw, s'.idBuild_cw, huid]
  · rw [s.idBuild_ident, refIdentity_toNat]; exact refIdentity_le s.uid

theorem State.tsBuild_cw (s : State) (d e : Half) : (s.tsBuild d e).cw = refCodeword (refTsPayload d e) := by
  rw [(s.tsBuild_spec d e).1]

theorem State.tsBuild_coded (s : State) (d e : Half) :
    Coded (s.tsBuild d e).mem .ts (refCodeword (refTsPayload d e)) := (s.tsBuild_spec d e).2.coded

/-- R122: outside the time-sync buffer's codeword region no byte changes. -/
theorem State.tsBuild_kept (s : State) (d e : Half) {c : BufSel} {i : Nat} (h : c ≠ .ts ∨ i < 20 ∨ 100 ≤ i) :
    (s.tsBuild d e).mem.byte? c i = s.mem.byte? c i := (s.tsBuild_spec d e).2.kept c i h

/-- Settles O24: what `State.tsBuild_spec` says of each register and byte. -/
theorem tsBuildFramesAnnouncement : Obligations.TsBuildFramesAnnouncement := by
  intro d e s
  refine ⟨s.tsBuild d e, exec_tsBuild d e s, s.tsBuild_eq d e, s.tsBuild_cw d e, ?_, ?_, fun _ _ => s.tsBuild_kept d e⟩
  · rw [s.tsBuild_cw, refCodeword_low, (s.tsBuild_spec d e).1]; exact allOnes_sub_not _
  · rw [s.tsBuild_cw]; exact s.tsBuild_coded d e

/-- Settles O25: equal low nibbles make equal payloads. -/
theorem tsBuildUsesLowEpochNibble : Obligations.TsBuildUsesLowEpochNibble := by
  intro d e e' s h
  rw [exec_tsBuild, exec_tsBuild, State.tsBuild, State.tsBuild, tsPayload_eq, tsPayload_eq, refTsPayload_congr d h]

/-- Settles O26: a codeword's top nibble is its payload's, the tag or an identity's. -/
theorem payloadTagsTellBeaconsApart : Obligations.PayloadTagsTellBeaconsApart := by
  refine ⟨fun d e s => ⟨_, exec_tsBuild d e s, ?_⟩, fun s => ⟨_, exec_idBuild s, ?_⟩⟩
  · rw [s.tsBuild_cw, refCodeword_top, refTsPayload_top]
  · rw [s.idBuild_cw, refCodeword_top]; exact identity_top_le s.uid

end Sys2Proof.Machine
end

section
/-! PROOFS. What a step runs (10_state.md R10, 44_scheduler.md R130, 70_reset_and_hazards.md R180): the three kinds of
fetch, and the move each turn makes. -/

namespace Sys2Proof.Machine

theorem step_of_fetch_op {s : State} {w : OpWord} {i : Instr} (hf : s.fetch = .op w) (hd : decode w = .ok i) :
    step s = exec i s.afterFetch := by
  simp only [step, hf, hd]

theorem step_of_fetch_undecodable {s : State} {w : OpWord} {r : Reject} (hf : s.fetch = .op w)
    (hd : decode w = .error r) : step s = .refused (.undecodable r) := by
  simp only [step, hf, hd]

theorem step_of_fetch_outside {s : State} {τ : Turn} (hf : s.fetch = .outside τ) :
    step s = .next (s.afterFetch.drive τ) := by
  simp only [step, hf]

theorem step_of_fetch_held {s : State} (hf : s.fetch = .held) : step s = .next s.afterFetch := by
  simp only [step, hf]

theorem State.fetch_of_issue {s : State} {w : OpWord} (hr : s.rst = false) (hi : s.issue = some w) :
    s.fetch = .op w := by
  simp [State.fetch, hr, hi]

theorem State.afterFetch_of_issue {s : State} {w : OpWord} (hr : s.rst = false) (hi : s.issue = some w) :
    s.afterFetch = { s with issue := none, phySend := false } := by
  simp [State.afterFetch, hr, hi]

theorem State.fetch_of_noIssue {s : State} (hi : s.issue = none) :
    s.fetch = if s.rst then heldTurn s.turn else fetchTurn s.st s.turn := by
  simp [State.fetch, hi]

theorem State.fetch_of_rst {s : State} (hr : s.rst = true) : s.fetch = heldTurn s.turn := if_pos hr

theorem State.afterFetch_of_rst {s : State} (hr : s.rst = true) :
    s.afterFetch = { s.dropTurn with phySend := false } := if_pos hr

/-- A turn of PHY or ENV is an outside move, `rst` asserted or not. -/
theorem State.fetch_of_outside_turn {s : State} (hi : s.issue = none) (hs : s.turn ≠ .seq) (ht : s.turn ≠ .tick) :
    s.fetch = .outside s.turn := by
  rw [State.fetch_of_noIssue hi]
  cases h : s.turn
  case seq => exact absurd h hs
  case tick => exact absurd h ht
  all_goals simp [heldTurn, fetchTurn]

theorem step_of_outside_turn {s : State} (hi : s.issue = none) (hs : s.turn ≠ .seq) (ht : s.turn ≠ .tick) :
    step s = .next (({ s.dropTurn with phySend := false } : State).drive s.turn) := by
  rw [step_of_fetch_outside (State.fetch_of_outside_turn hi hs ht), State.afterFetch_of_noIssue hi]

theorem seqWord_eq_encode (st : SeqState) : seqWord st = encode (seqInstr st) := by cases st <;> rfl

/-- Where nothing is issued, the operations fetched are SEQ's of the current `st` and TICK's. -/
theorem fetched_of_noIssue {s : State} {i : Instr} (hi : s.issue = none) (hf : s.fetch = .op (encode i)) :
    i = seqInstr s.st ∨ i = .tickAdv := by
  rcases State.fetch_cases hi with ⟨_, _, h⟩ | ⟨_, _, h⟩ | ⟨_, _, h⟩ | ⟨_, _, _, h⟩ | ⟨_, _, h⟩ | ⟨_, _, h⟩ <;>
    rw [hf] at h
  · exact .inl (encode_injective ((Fetched.op.inj h).trans (seqWord_eq_encode s.st)))
  · exact .inr (encode_injective (Fetched.op.inj h))
  all_goals cases h

/-- Settles O1: the fields of `State.reset`, and its two empty buffers. -/
theorem resetLeavesBootState : Obligations.ResetLeavesBootState :=
  ⟨rfl, rfl, rfl, rfl, rfl, rfl, rfl, rfl, rfl, rfl, rfl, fun b _ => by cases b <;> rfl⟩

/-- Settles O5: the decoded operation runs, and an issued word is fetched before any turn. -/
theorem stepRunsDecoded : Obligations.StepRunsDecoded := by
  refine ⟨fun s w i => step_of_fetch_op, fun s w i hr hi hd => ?_⟩
  rw [step_of_fetch_op (State.fetch_of_issue hr hi) hd, State.afterFetch_of_issue hr hi]

/-- Settles O6: the word fetched on SEQ's turn is that of `st`, and on TICK's turn TICK.ADV's. -/
theorem stateSelectsStep : Obligations.StateSelectsStep := by
  intro s hr hi
  have hfetch : s.fetch = fetchTurn s.st s.turn := by rw [State.fetch_of_noIssue hi, hr]; rfl
  have hrow : ∀ p ∈ [(SeqState.boot, Instr.seqBoot), (.txBegin, .txBegin), (.txUnit, .txUnit), (.txEnd, .txEnd),
      (.planSnap, .planSnap), (.planBuild, .planBuild), (.wait, .wait)], p.2 = seqInstr p.1 := by decide
  rw [← State.afterFetch_of_noIssue hi]
  refine ⟨fun ht => ?_, fun p hp ht hst => ?_⟩
  · exact step_of_fetch_op (hfetch.trans (by rw [ht]; rfl)) decode_tickWord
  · rw [hrow p hp, ← hst]
    exact step_of_fetch_op (hfetch.trans (by rw [ht]; rfl)) (decode_seqWord s.st)

/-- Settles O7: a turn of PHY or ENV drives its inputs in the state less the turn. -/
theorem outsideMovesDriveInputsOnly : Obligations.OutsideMovesDriveInputsOnly := by
  refine fun s hi => ⟨fun r b ht => ?_, fun v ht => ?_⟩ <;>
    rw [step_of_outside_turn hi (by simp [ht]) (by simp [ht]), ht] <;> rfl

/-- Settles O8: asserted, `rst` holds both agents; a turn that drives it is ENV's, and asserting it is `toReset`. -/
theorem resetHoldsAgents : Obligations.ResetHoldsAgents := by
  refine ⟨fun s hr ht => ?_, fun s hr ht => ?_,
    fun s hi ht => ⟨_, step_of_outside_turn hi (by simp [ht]) (by simp [ht]), ?_⟩⟩
  · have hfetch : s.fetch = .held := by
      rw [State.fetch_of_rst hr]; rcases ht with ht | ht <;> rw [ht] <;> rfl
    rw [step_of_fetch_held hfetch, State.afterFetch_of_rst hr]
  · have hfetch : s.fetch = .outside (.rst false) := by rw [State.fetch_of_rst hr, ht]; rfl
    rw [step_of_fetch_outside hfetch, State.afterFetch_of_rst hr]; rfl
  · rw [ht, State.dropTurn_eq]
    exact ⟨rfl, rfl, rfl, rfl, rfl, rfl, rfl, rfl, rfl, rfl, rfl, rfl, rfl, rfl, fun b _ => by cases b <;> rfl⟩

end Sys2Proof.Machine
end

section
/-! PROOFS. The sequencer's steps, enabled and stuck (44_scheduler.md R130 to R138): each guard taken once, and what the
effect behind it leaves. -/

namespace Sys2Proof.Machine

theorem whenEnabled_run {g : Bool} {s : State} {f : State → Host.Outcome State Fault Refusal} (h : g = true) :
    whenEnabled g s f = f s := by rw [h, whenEnabled_true]

theorem whenEnabled_stuck {g : Bool} {s : State} {f : State → Host.Outcome State Fault Refusal} (h : g = false) :
    whenEnabled g s f = .next s := by rw [h, whenEnabled_false]

theorem exec_seqBoot (s : State) : exec .seqBoot s = execSeqBoot s := rfl
theorem exec_txUnit (s : State) : exec .txUnit s = execTxUnit s := rfl
theorem exec_txEnd (s : State) : exec .txEnd s = execTxEnd s := rfl
theorem exec_planSnap (s : State) : exec .planSnap s = execPlanSnap s := rfl
theorem exec_planBuild (s : State) : exec .planBuild s = execPlanBuild s := rfl
theorem exec_wait (s : State) : exec .wait s = execWait s := rfl
theorem exec_tickAdv (s : State) : exec .tickAdv s = execTickAdv s := rfl

/-! ### Enabled -/

theorem exec_seqBoot_of {s : State} (h : s.st = .boot) :
    exec .seqBoot s = .next { s.idBuild.frmConst .ts with st := .txBegin } := by
  rw [exec_seqBoot, execSeqBoot, whenEnabled_run]
  simp [h]

theorem exec_txUnit_of_memRead_error {s : State} {f : Fault} (h : s.st = .txUnit) (hr : s.phyReady = true)
    (hm : s.memRead s.sel s.idx.toNat = .error f) : exec .txUnit s = .fault f := by
  rw [exec_txUnit, execTxUnit, whenEnabled_run]
  · simp only [hm]
  · simp [h, hr]

theorem exec_txEnd_of {s : State} (h : s.st = .txEnd) (hb : s.phyBusy = false) :
    exec .txEnd s = .next { s with
      irqMask := false, epoch := if s.ovfPending then s.epoch + 1 else s.epoch, ovfPending := false,
      st := .planSnap } := by
  rw [exec_txEnd, execTxEnd, whenEnabled_run]
  · cases ho : s.ovfPending <;> simp [State.takeTickInterrupt]
  · simp [h, hb]

theorem exec_planSnap_of {s : State} (h : s.st = .planSnap) :
    exec .planSnap s =
      if jitterInContract s.jitterIn then .next s.snap else .refused (.jitterOutOfContract s.jitterIn) := by
  rw [exec_planSnap, execPlanSnap, whenEnabled_run]
  simp [h]

theorem exec_planBuild_id {s : State} (h : s.st = .planBuild) (hn : s.nxtSync = false) :
    exec .planBuild s = .next { s with sel := .id, st := .wait } := by
  rw [exec_planBuild, execPlanBuild, whenEnabled_run]
  · simp [hn]
  · simp [h]

theorem exec_planBuild_ts {s : State} (h : s.st = .planBuild) (hn : s.nxtSync = true) :
    exec .planBuild s = .next { s.tsBuild s.deadline s.eval with sel := .ts, st := .wait } := by
  rw [exec_planBuild, execPlanBuild, whenEnabled_run]
  · simp [hn]
  · simp [h]

theorem exec_wait_of {s : State} (h : s.st = .wait) (hd : s.tickCnt = s.deadline) :
    exec .wait s = .next { s with st := .txBegin } := by
  rw [exec_wait, execWait, whenEnabled_run]
  simp [h, hd]

theorem tickEnabled_iff {s : State} : tickEnabled s = true ↔ ¬ (s.st = .wait ∧ s.tickCnt = s.deadline) := by
  rw [tickEnabled, Bool.not_eq_true', Bool.and_eq_false_iff, beq_eq_false_iff_ne, beq_eq_false_iff_ne, not_and_or]

theorem exec_tickAdv_of {s : State} (h : ¬ (s.st = .wait ∧ s.tickCnt = s.deadline)) :
    exec .tickAdv s = .next s.advanceTick := by
  rw [exec_tickAdv, execTickAdv, whenEnabled_run (tickEnabled_iff.mpr h)]

/-! ### Stuck -/

theorem exec_txUnit_stuck {s : State} (h : s.st ≠ .txUnit ∨ s.phyReady = false) : exec .txUnit s = .next s := by
  rw [exec_txUnit, execTxUnit, whenEnabled_stuck]
  rcases h with h | h <;> simp [h]

theorem exec_txEnd_stuck {s : State} (h : s.st ≠ .txEnd ∨ s.phyBusy = true) : exec .txEnd s = .next s := by
  rw [exec_txEnd, execTxEnd, whenEnabled_stuck]
  rcases h with h | h <;> simp [h]

theorem exec_wait_stuck {s : State} (h : s.st ≠ .wait ∨ s.tickCnt ≠ s.deadline) : exec .wait s = .next s := by
  rw [exec_wait, execWait, whenEnabled_stuck]
  rcases h with h | h <;> simp [h]

theorem exec_tickAdv_stuck {s : State} (h : s.st = .wait) (hd : s.tickCnt = s.deadline) :
    exec .tickAdv s = .next s := by
  rw [exec_tickAdv, execTickAdv, whenEnabled_stuck]
  simp [tickEnabled, h, hd]

/-- A step of SEQ in another state than its own changes nothing. -/
theorem exec_seqInstr_of_ne {s : State} {st : SeqState} (h : s.st ≠ st) : exec (seqInstr st) s = .next s := by
  have hg : (s.st == st) = false := beq_eq_false_iff_ne.mpr h
  cases st with
  | boot => rw [seqInstr, exec_seqBoot, execSeqBoot, whenEnabled_stuck hg]
  | txBegin => rw [seqInstr, exec_txBegin, execTxBegin, whenEnabled_stuck hg]
  | txUnit => exact exec_txUnit_stuck (.inl h)
  | txEnd => exact exec_txEnd_stuck (.inl h)
  | planSnap => rw [seqInstr, exec_planSnap, execPlanSnap, whenEnabled_stuck hg]
  | planBuild => rw [seqInstr, exec_planBuild, execPlanBuild, whenEnabled_stuck hg]
  | wait => exact exec_wait_stuck (.inl h)

theorem exec_planSnap_stuck {s : State} (h : s.st ≠ .planSnap) : exec .planSnap s = .next s := exec_seqInstr_of_ne h

theorem exec_planBuild_stuck {s : State} (h : s.st ≠ .planBuild) : exec .planBuild s = .next s :=
  exec_seqInstr_of_ne h

/-- Settles O36: each step of SEQ in another state than its own, and each guard on an input or on the counter. -/
theorem stuckStepsChangeNothing : Obligations.StuckStepsChangeNothing := fun _ =>
  ⟨exec_seqInstr_of_ne, exec_seqInstr_of_ne, exec_txUnit_stuck, exec_txEnd_stuck, exec_planSnap_stuck,
    exec_planBuild_stuck, exec_wait_stuck, exec_tickAdv_stuck⟩

/-! ### The scheduler's computations as numbers -/

theorem nextSync_eq (c : BitVec 10) : nextSync c = decide (c.toNat = 666) := by
  rw [nextSync, Bool.eq_iff_iff, beq_iff_eq, decide_eq_true_eq, ← BitVec.toNat_inj]; rfl

theorem ledAfter_eq (b : Bool) : ledAfter b = !b := by cases b <;> rfl

theorem cycNext_toNat (c : BitVec 10) : (cycNext c).toNat = (c.toNat + 1) % 667 := by
  rw [cycNext, BitVec.toNat_ofNat, cycMod]; omega

/-- The deadline's distance from the snapshot (R135, R141). -/
theorem deadlineOf_sub_toNat (t : Half) (j : BitVec 4) : (deadlineOf t j - t).toNat = 10 + j.toNat := by
  have := t.isLt
  have := j.isLt
  rw [BitVec.toNat_sub, deadlineOf_toNat]
  omega

theorem deadlineOf_ne (t : Half) (j : BitVec 4) : deadlineOf t j ≠ t := by
  intro h
  have hsub := deadlineOf_sub_toNat t j
  rw [h, BitVec.sub_self] at hsub
  simp at hsub
  omega

/-- R135, corner case (c): when the counter wraps before the deadline. -/
theorem wrapsBefore_deadlineOf (t : Half) (j : BitVec 4) (hj : j.toNat ≤ 9) :
    wrapsBefore (deadlineOf t j) t = decide (65526 ≤ t.toNat + j.toNat) := by
  have := t.isLt
  rw [wrapsBefore, decide_eq_decide, BitVec.le_def, deadlineOf_toNat]
  omega

theorem idx_succ_eq_ofNat (x : BitVec 7) : x + 1 = BitVec.ofNat 7 (x.toNat + 1) :=
  BitVec.eq_of_toNat_eq (by simp [BitVec.toNat_add])

/-- Within a buffer the next offset is the number's successor. -/
theorem idx_succ_toNat {x : BitVec 7} (h : x.toNat < 104) : (x + 1).toNat = x.toNat + 1 := by
  rw [idx_succ_eq_ofNat, BitVec.toNat_ofNat]; omega

theorem jitterInContract_iff {v : BitVec 4} : jitterInContract v = true ↔ v.toNat ≤ 9 := by
  simp [jitterInContract]

theorem exec_planSnap_next {s : State} (h : s.st = .planSnap) (hj : s.jitterIn.toNat ≤ 9) :
    exec .planSnap s = .next s.snap := by
  rw [exec_planSnap_of h, if_pos (jitterInContract_iff.mpr hj)]

/-- The counter's advance writes the counter, `epoch` and `ovf_pending` alone. -/
theorem State.advanceTick_eq (s : State) : s.advanceTick = { s with
    tickCnt := s.advanceTick.tickCnt, epoch := s.advanceTick.epoch, ovfPending := s.advanceTick.ovfPending } := by
  rcases s.advanceTick_cases with ⟨_, e⟩ | ⟨_, _, e⟩ | ⟨_, _, e⟩ <;> rw [e]

@[simp] theorem State.advanceTick_st (s : State) : s.advanceTick.st = s.st := by rw [advanceTick_eq]
@[simp] theorem State.advanceTick_ident (s : State) : s.advanceTick.ident = s.ident := by rw [advanceTick_eq]
@[simp] theorem State.advanceTick_mem (s : State) : s.advanceTick.mem = s.mem := by rw [advanceTick_eq]
@[simp] theorem State.advanceTick_cyc (s : State) : s.advanceTick.cyc = s.cyc := by rw [advanceTick_eq]
@[simp] theorem State.advanceTick_nxtSync (s : State) : s.advanceTick.nxtSync = s.nxtSync := by rw [advanceTick_eq]
@[simp] theorem State.advanceTick_led (s : State) : s.advanceTick.led = s.led := by rw [advanceTick_eq]
@[simp] theorem State.advanceTick_irqMask (s : State) : s.advanceTick.irqMask = s.irqMask := by rw [advanceTick_eq]
@[simp] theorem State.advanceTick_line (s : State) : s.advanceTick.line = s.line := by rw [advanceTick_eq]
@[simp] theorem State.advanceTick_phySend (s : State) : s.advanceTick.phySend = s.phySend := by rw [advanceTick_eq]

/-! ### The obligations -/

/-- Settles O29: the enabled step, with `idx` and the last offset read as numbers. -/
theorem txUnitSendsNextUnit : Obligations.TxUnitSendsNextUnit := by
  intro s v h hr hi hv
  refine (execTxUnit_of h hr hi hv).trans ?_
  simp only [drained_succ s.idx hi, decide_eq_true_eq, h, State.sendUnit]
  rw [idx_succ_eq_ofNat]

/-- Settles O30: the read's two faults, and PLAN.SNAP's refusal. -/
theorem stopsAreNamed : Obligations.StopsAreNamed := by
  refine fun s => ⟨fun h hr hi hv => exec_txUnit_of_memRead_error h hr ?_,
    fun h hr hi => exec_txUnit_of_memRead_error h hr ?_, fun h hj => ?_⟩
  · simp only [State.memRead, if_pos hi, hv]
  · exact if_neg (by omega)
  · rw [exec_planSnap_of h, if_neg (by rw [jitterInContract_iff]; omega)]

/-- Settles O31: the enabled step's effect. -/
theorem txEndLiftsMaskAndCounts : Obligations.TxEndLiftsMaskAndCounts := fun _ => exec_txEnd_of

/-- Settles O32: the snapshot, each of its computations read as a number. -/
theorem planSnapSetsDeadlineAndEpoch : Obligations.PlanSnapSetsDeadlineAndEpoch := by
  intro s h hj
  have hdead : deadlineOf s.tickCnt s.jitterIn =
      BitVec.ofNat 16 ((s.tickCnt.toNat + 10 + s.jitterIn.toNat) % 65536) :=
    BitVec.eq_of_toNat_eq (by rw [deadlineOf_toNat, BitVec.toNat_ofNat, Nat.mod_mod])
  have heval : (if nextSync s.cyc then epochAt s.epoch (deadlineOf s.tickCnt s.jitterIn) s.tickCnt else s.eval) =
      if s.cyc.toNat = 666 then (if 65526 ≤ s.tickCnt.toNat + s.jitterIn.toNat then s.epoch + 1 else s.epoch)
      else s.eval := by
    simp only [nextSync_eq, epochAt, wrapsBefore_deadlineOf _ _ hj, decide_eq_true_eq]
  rw [exec_planSnap_next h hj, State.snap]
  simp only [heval]
  rw [hdead, nextSync_eq, ledAfter_eq, cycNext]
  rfl

/-- Settles O33: the deadline is the snapshot plus 10 plus a draw of at most 9. -/
theorem deadlineLiesInWindow : Obligations.DeadlineLiesInWindow := by
  intro s h hj
  have hsub : (s.snap.deadline - s.snap.now).toNat = 10 + s.jitterIn.toNat := deadlineOf_sub_toNat _ _
  exact ⟨s.snap, exec_planSnap_next h hj, rfl, by omega, by omega, deadlineOf_ne _ _⟩

/-- Settles O34: the two branches of PLAN.BUILD; the second is TS.BUILD of `deadline` and `eval`. -/
theorem planBuildSelectsNextBuffer : Obligations.PlanBuildSelectsNextBuffer := by
  refine fun s h => ⟨exec_planBuild_id h, fun hn => ⟨_, exec_planBuild_ts h hn, ?_, ?_, ?_,
    fun _ _ => s.tsBuild_kept s.deadline s.eval⟩⟩
  · rw [State.tsBuild_eq]
  · exact s.tsBuild_cw s.deadline s.eval
  · rw [State.tsBuild_cw]; exact s.tsBuild_coded s.deadline s.eval

/-- Settles O35: the wait's guard holds. -/
theorem waitLeavesAtDeadline : Obligations.WaitLeavesAtDeadline := fun _ => exec_wait_of

/-- Settles O37: the three things the counter's advance can do. -/
theorem tickAdvCountsAndRaises : Obligations.TickAdvCountsAndRaises := by
  intro s h
  rw [exec_tickAdv_of h, Ne, ← tick_succ_eq_zero]
  rcases s.advanceTick_cases with ⟨hw, he⟩ | ⟨hw, hm, he⟩ | ⟨hw, hm, he⟩ <;> rw [he]
  · exact ⟨fun _ => rfl, fun h0 => absurd h0 hw, fun h0 => absurd h0 hw⟩
  · exact ⟨fun h0 => absurd hw h0, fun _ h1 => by simp [h1] at hm, fun _ _ => rfl⟩
  · exact ⟨fun h0 => absurd hw h0, fun _ _ => rfl, fun _ h1 => by simp [h1] at hm⟩

/-- A masked wrap leaves one wrap latched whatever was latched before, and TX.END counts it. -/
theorem execs_tickAdv_txEnd_of_wrap {s : State} (h : s.st = .txEnd) (hb : s.phyBusy = false) (hm : s.irqMask = true)
    (hc : s.tickCnt = 0xFFFF) : execs [.tickAdv, .txEnd] s = .next { s with
      tickCnt := 0, irqMask := false, ovfPending := false, epoch := s.epoch + 1, st := .planSnap } := by
  obtain ⟨-, -, htick⟩ := tickAdvCountsAndRaises s (by simp [h])
  have hend := exec_txEnd_of (s := { s with tickCnt := 0, ovfPending := true }) h hb
  rw [execs_cons_of_next (htick hc hm), execs_cons_of_next hend]
  rfl

/-- Settles O39: what was latched before the wrap makes no difference after it. -/
theorem secondWrapInDrainIsLost : Obligations.SecondWrapInDrainIsLost := fun s h hb hm hc =>
  have hone := execs_tickAdv_txEnd_of_wrap h hb hm hc
  ⟨hone.trans (execs_tickAdv_txEnd_of_wrap (s := { s with ovfPending := !s.ovfPending }) h hb hm hc).symm, hone⟩

end Sys2Proof.Machine
end

section
/-! PROOFS. What BOOT leaves in both buffers (44_scheduler.md R131), and that every writer of BUF writes symbols only
(30_encoding.md R72 a). -/

namespace Sys2Proof.Machine

/-- What BOOT's two framings leave of a state: this device's identity beacon, and the constants of the other buffer. -/
structure BootFramed (s t : State) : Prop where
  ident : t.ident = BitVec.ofNat 24 (refIdentity s.uid)
  cw : t.cw = refCodeword t.ident
  sr : t.sr = encRegister t.cw 40
  idConst : ConstFramed t.mem s.pre .id
  idCoded : Coded t.mem .id t.cw
  tsConst : ConstFramed t.mem s.pre .ts
  keptTs : ∀ i, 20 ≤ i ∧ i < 100 ∨ 104 ≤ i → t.mem.byte? .ts i = s.mem.byte? .ts i
  keptId : ∀ i, 104 ≤ i → t.mem.byte? .id i = s.mem.byte? .id i
  wf : s.mem.wf = true → t.mem.wf = true

theorem State.bootBuild_spec (s : State) : BootFramed s (s.idBuild.frmConst .ts) := by
  obtain ⟨hid, hconst, hcoded, hkept, hwf⟩ := s.idBuild_spec
  obtain ⟨heq, hframed⟩ := s.idBuild.frmConst_spec .ts
  have hother : ∀ i, (s.idBuild.frmConst .ts).mem.byte? .id i = s.idBuild.mem.byte? .id i :=
    fun i => hframed.kept .id i (.inl (by decide))
  have hident : (s.idBuild.frmConst .ts).ident = s.idBuild.ident := by rw [heq]
  have hcw : (s.idBuild.frmConst .ts).cw = s.idBuild.cw := by rw [heq]
  have hpre : s.idBuild.pre = s.pre := by rw [hid]
  have hsr : (s.idBuild.frmConst .ts).sr = s.idBuild.sr := by rw [heq]
  rw [s.idBuild_ident] at hident
  rw [s.idBuild_cw] at hcw
  refine ⟨hident, by rw [hcw, hident], ?_, hconst.mono fun i _ => hother i, ?_, hpre ▸ hframed.const, fun i hi => ?_,
    fun i hi => ?_, fun h => hframed.wf (hwf h)⟩
  · rw [hsr, hcw, hid]
  · rw [hcw]; exact hcoded.mono fun i _ => hother i
  · rw [hframed.kept .ts i (.inr hi), hkept .ts i (.inl (by decide))]
  · rw [hother, hkept .id i (.inr hi)]

/-- Settles O27: SEQ.BOOT is BOOT's two framings, then `st`. -/
theorem seqBootFramesBothBuffers : Obligations.SeqBootFramesBothBuffers := by
  intro s h
  have hb := s.bootBuild_spec
  have heq := s.bootBuild_eq
  rw [exec_seqBoot_of h]
  generalize s.idBuild.frmConst .ts = t at hb heq
  refine ⟨_, rfl, ?_, ?_, hb.cw, hb.idConst, hb.idCoded, hb.tsConst, hb.keptTs, hb.keptId⟩
  · rw [heq]
  · rw [hb.ident, refIdentity_toNat]

/-! ### Symbols -/

/-- Every byte that has a value is one of the two symbols: CoreInv's clause on BUF. -/
def AllSymbols (m : Memory) : Prop := ∀ b i v, m.byte? b i = some v → v = 0xAA ∨ v = 0x55

/-- The byte has a value, and it is one of the two symbols. -/
def SymbolAt (m : Memory) (b : BufSel) (i : Nat) : Prop := ∃ v, m.byte? b i = some v ∧ (v = 0xAA ∨ v = 0x55)

theorem AllSymbols.update {m m' : Memory} (h : AllSymbols m)
    (hu : ∀ b i, m'.byte? b i = m.byte? b i ∨ SymbolAt m' b i) : AllSymbols m' := by
  intro b i v hv
  rcases hu b i with hkept | ⟨u, hu, hsym⟩
  · exact h b i v (hkept ▸ hv)
  · rw [hv] at hu; cases hu; exact hsym

theorem bitByte_cases (p : Bool) : bitByte p = 0xAA ∨ bitByte p = 0x55 := by cases p <;> simp [bitByte]

/-- Both symbol bytes stand in the constant regions. -/
theorem ConstFramed.symbolAt {m : Memory} {pre : Vector Symbol 16} {b : BufSel} (h : ConstFramed m pre b) {i : Nat}
    (hi : i < 20 ∨ 100 ≤ i ∧ i < 104) : SymbolAt m b i := by
  obtain ⟨train, preamble, trail⟩ := h
  rcases hi with hlow | ⟨hlo, hhi⟩
  · rcases Nat.lt_or_ge i 4 with h4 | h4
    · exact ⟨_, train i h4, .inl rfl⟩
    · obtain ⟨k, rfl⟩ := Nat.exists_eq_add_of_le h4
      exact ⟨_, preamble ⟨k, by omega⟩, bitByte_cases _⟩
  · exact ⟨_, trail i hlo hhi, .inl rfl⟩

/-- A code symbol stands at each offset of the codeword region. -/
theorem Coded.symbolAt {m : Memory} {b : BufSel} {w : Codeword} (h : Coded m b w) {i : Nat} (hlo : 20 ≤ i)
    (hhi : i < 100) : SymbolAt m b i := by
  obtain ⟨j, rfl⟩ := Nat.exists_eq_add_of_le hlo
  exact ⟨_, h j (by omega), codeSymbol_cases w j⟩

/-- A framed buffer has a symbol at each of its offsets. -/
theorem symbolAt_of_framed {m : Memory} {pre : Vector Symbol 16} {b : BufSel} {w : Codeword}
    (hconst : ConstFramed m pre b) (hcoded : Coded m b w) {i : Nat} (hi : i < 104) : SymbolAt m b i := by
  by_cases hcode : 20 ≤ i ∧ i < 100
  · exact hcoded.symbolAt hcode.1 hcode.2
  · exact hconst.symbolAt (by omega)

theorem Emitted.allSymbols {m m' : Memory} {b : BufSel} {w : Codeword} (he : Emitted m m' b w 40)
    (h : AllSymbols m) : AllSymbols m' := by
  refine h.update fun c i => ?_
  by_cases hout : c ≠ b ∨ i < 20 ∨ 100 ≤ i
  · exact .inl (he.kept c i hout)
  · obtain ⟨hcb, hi⟩ := not_or.mp hout
    obtain rfl := not_not.mp hcb
    exact .inr (he.coded.symbolAt (by omega) (by omega))

theorem BootFramed.allSymbols {s t : State} (hb : BootFramed s t) (h : AllSymbols s.mem) : AllSymbols t.mem := by
  refine h.update fun c i => ?_
  rcases Nat.lt_or_ge i 104 with hi | hi
  · cases c with
    | id => exact .inr (symbolAt_of_framed hb.idConst hb.idCoded hi)
    | ts =>
      by_cases hcode : 20 ≤ i ∧ i < 100
      · exact .inl (hb.keptTs i (.inl hcode))
      · exact .inr (hb.tsConst.symbolAt (by omega))
  · cases c with
    | id => exact .inl (hb.keptId i hi)
    | ts => exact .inl (hb.keptTs i (.inr hi))

end Sys2Proof.Machine
end

section
/-! PROOFS. What a step can do to the control state, issued operations included (10_state.md section 4): one inversion
lemma, and the claims about `cyc`, `nxt_sync`, `led`, `epoch`, `irq_mask`, the line and the time told that follow. -/

namespace Sys2Proof.Machine

/-! ### The state in which what was fetched runs -/

@[simp] theorem State.afterFetch_st (s : State) : s.afterFetch.st = s.st := by rw [afterFetch_eq]
@[simp] theorem State.afterFetch_idx (s : State) : s.afterFetch.idx = s.idx := by rw [afterFetch_eq]
@[simp] theorem State.afterFetch_sel (s : State) : s.afterFetch.sel = s.sel := by rw [afterFetch_eq]
@[simp] theorem State.afterFetch_mem (s : State) : s.afterFetch.mem = s.mem := by rw [afterFetch_eq]
@[simp] theorem State.afterFetch_cyc (s : State) : s.afterFetch.cyc = s.cyc := by rw [afterFetch_eq]
@[simp] theorem State.afterFetch_nxtSync (s : State) : s.afterFetch.nxtSync = s.nxtSync := by rw [afterFetch_eq]
@[simp] theorem State.afterFetch_led (s : State) : s.afterFetch.led = s.led := by rw [afterFetch_eq]
@[simp] theorem State.afterFetch_epoch (s : State) : s.afterFetch.epoch = s.epoch := by rw [afterFetch_eq]
@[simp] theorem State.afterFetch_irqMask (s : State) : s.afterFetch.irqMask = s.irqMask := by rw [afterFetch_eq]
@[simp] theorem State.afterFetch_ovfPending (s : State) : s.afterFetch.ovfPending = s.ovfPending := by
  rw [afterFetch_eq]
@[simp] theorem State.afterFetch_tickCnt (s : State) : s.afterFetch.tickCnt = s.tickCnt := by rw [afterFetch_eq]
@[simp] theorem State.afterFetch_phyReady (s : State) : s.afterFetch.phyReady = s.phyReady := by rw [afterFetch_eq]
@[simp] theorem State.afterFetch_phyBusy (s : State) : s.afterFetch.phyBusy = s.phyBusy := by rw [afterFetch_eq]
@[simp] theorem State.afterFetch_jitterIn (s : State) : s.afterFetch.jitterIn = s.jitterIn := by rw [afterFetch_eq]
@[simp] theorem State.afterFetch_pre (s : State) : s.afterFetch.pre = s.pre := by rw [afterFetch_eq]
@[simp] theorem State.afterFetch_uid (s : State) : s.afterFetch.uid = s.uid := by rw [afterFetch_eq]
@[simp] theorem State.afterFetch_ident (s : State) : s.afterFetch.ident = s.ident := by rw [afterFetch_eq]
@[simp] theorem State.afterFetch_line (s : State) : s.afterFetch.line = s.line := by rw [afterFetch_eq]
@[simp] theorem State.afterFetch_phySend (s : State) : s.afterFetch.phySend = false := by rw [afterFetch_eq]
@[simp] theorem tickEnabled_afterFetch (s : State) : tickEnabled s.afterFetch = tickEnabled s := by
  rw [State.afterFetch_eq]; rfl

/-! ### Operations of the datapath -/

/-- All of the state but the datapath's registers, BUF and the result lines is kept. -/
def DatapathOnly (s t : State) : Prop :=
  t = { s with
    acc32 := t.acc32, acc8 := t.acc8, sr := t.sr, cw := t.cw, ident := t.ident, mem := t.mem, ret := t.ret }

theorem State.encWord_datapathOnly (s : State) (b : BufSel) (w : Codeword) : DatapathOnly s (s.encWord b w) := by
  unfold DatapathOnly; rw [(s.encWord_spec b w).1]

theorem State.frmConst_datapathOnly (s : State) (b : BufSel) : DatapathOnly s (s.frmConst b) := by
  unfold DatapathOnly; rw [(s.frmConst_spec b).1]

theorem State.idBuild_datapathOnly (s : State) : DatapathOnly s s.idBuild := by
  unfold DatapathOnly; rw [s.idBuild_spec.1]

theorem State.tsBuild_datapathOnly (s : State) (d e : Half) : DatapathOnly s (s.tsBuild d e) := by
  unfold DatapathOnly; rw [s.tsBuild_eq d e]

theorem State.bootBuild_datapathOnly (s : State) : DatapathOnly s (s.idBuild.frmConst .ts) := by
  unfold DatapathOnly; rw [s.bootBuild_eq]

theorem next_unique {o : Host.Outcome State Fault Refusal} {x t : State} (h : o = .next t) (hx : o = .next x) :
    t = x := by
  rw [hx] at h; cases h; rfl

/-- All that one operation can leave of the state in which it runs. -/
inductive ExecEffect (u : State) : Instr → State → Prop where
  | datapath {i : Instr} {t : State} (h : DatapathOnly u t) : ExecEffect u i t
  | seq {t : State} (h : SeqMove u t) : ExecEffect u (seqInstr u.st) t
  | tick (h : tickEnabled u = true) : ExecEffect u .tickAdv u.advanceTick
  | epochInc : ExecEffect u .epochInc u.takeTickInterrupt

/-- A step of SEQ is its move where `st` is its own, and changes nothing elsewhere. -/
theorem execEffect_seqInstr {u t : State} (st : SeqState) (h : exec (seqInstr st) u = .next t) :
    ExecEffect u (seqInstr st) t := by
  by_cases hst : u.st = st
  · subst hst
    rcases seqStep_seqMove u with ⟨x, hx, hm⟩ | ⟨_, _, hf, _⟩ | ⟨_, _, hr⟩
    · rw [next_unique h hx]; exact .seq hm
    · rw [hf] at h; cases h
    · rw [hr] at h; cases h
  · rw [next_unique h (exec_seqInstr_of_ne hst)]; exact .datapath rfl

theorem exec_effect {i : Instr} {u t : State} (h : exec i u = .next t) : ExecEffect u i t := by
  cases i with
  | crc32Clr => rw [next_unique h (exec_crc32Clr u)]; exact .datapath rfl
  | crc32Bit d => rw [next_unique h (exec_crc32Bit d u)]; exact .datapath rfl
  | crc32Byte b => rw [next_unique h (exec_crc32Byte b u)]; exact .datapath rfl
  | crc32Fin => rw [next_unique h (exec_crc32Fin u)]; exact .datapath rfl
  | crc8Clr => rw [next_unique h (exec_crc8Clr u)]; exact .datapath rfl
  | crc8Byte b => rw [next_unique h (exec_crc8Byte b u)]; exact .datapath rfl
  | crc8Fin => rw [next_unique h (exec_crc8Fin u)]; exact .datapath rfl
  | encClr => rw [next_unique h (exec_encClr u)]; exact .datapath rfl
  | encBit d => rw [next_unique h (exec_encBit d u)]; exact .datapath rfl
  | encWord b w | frmCode b w => rw [next_unique h (exec_encWord b w u)]; exact .datapath (u.encWord_datapathOnly b w)
  | frmConst b => rw [next_unique h (exec_frmConst b u)]; exact .datapath (u.frmConst_datapathOnly b)
  | cwMake p => rw [next_unique h (exec_cwMake p u)]; exact .datapath rfl
  | idBuild => rw [next_unique h (exec_idBuild u)]; exact .datapath u.idBuild_datapathOnly
  | tsBuild d e => rw [next_unique h (exec_tsBuild d e u)]; exact .datapath (u.tsBuild_datapathOnly d e)
  | seqBoot => exact execEffect_seqInstr .boot h
  | txBegin => exact execEffect_seqInstr .txBegin h
  | txUnit => exact execEffect_seqInstr .txUnit h
  | txEnd => exact execEffect_seqInstr .txEnd h
  | planSnap => exact execEffect_seqInstr .planSnap h
  | planBuild => exact execEffect_seqInstr .planBuild h
  | wait => exact execEffect_seqInstr .wait h
  | tickAdv =>
    by_cases he : u.st = .wait ∧ u.tickCnt = u.deadline
    · rw [next_unique h (exec_tickAdv_stuck he.1 he.2)]; exact .datapath rfl
    · rw [next_unique h (exec_tickAdv_of he)]; exact .tick (tickEnabled_iff.mpr he)
  | epochInc => rw [next_unique h (exec_epochInc u)]; exact .epochInc

/-! ### Steps -/

/-- The control state, the time and the line are kept, and no unit is sent. -/
structure ControlKept (s t : State) : Prop where
  cyc : t.cyc = s.cyc
  nxtSync : t.nxtSync = s.nxtSync
  led : t.led = s.led
  epoch : t.epoch = s.epoch
  irqMask : t.irqMask = s.irqMask
  ovfPending : t.ovfPending = s.ovfPending
  tickCnt : t.tickCnt = s.tickCnt
  line : t.line = s.line
  phySend : t.phySend = false

theorem controlKept_afterFetch (s : State) : ControlKept s s.afterFetch := by
  constructor <;> simp

/-- Where SEQ goes next, and the buffer selected, are no part of it. -/
theorem ControlKept.goTo {s t : State} (h : ControlKept s t) (b : BufSel) (st : SeqState) :
    ControlKept s { t with sel := b, st := st } :=
  ⟨h.cyc, h.nxtSync, h.led, h.epoch, h.irqMask, h.ovfPending, h.tickCnt, h.line, h.phySend⟩

/-- What an operation of the datapath leaves, after the fetch. -/
theorem DatapathOnly.controlKept {s t : State} (h : DatapathOnly s.afterFetch t) : ControlKept s t := by
  unfold DatapathOnly at h
  rw [h]
  constructor <;> simp

/-- A move of PHY or ENV that does not assert `rst`. -/
theorem controlKept_drive (s : State) {τ : Turn} (h : τ ≠ .rst true) : ControlKept s (s.afterFetch.drive τ) := by
  cases τ with
  | rst l =>
    cases l with
    | true => exact absurd rfl h
    | false => constructor <;> simp [State.drive, State.driveRst]
  | seq | tick | phy r b | jitter v => constructor <;> simp [State.drive]

/-- All that a step other than a reset can do to the control state, with the operation that does it. -/
inductive Effect (s : State) : State → Prop where
  | kept {t : State} (h : ControlKept s t) : Effect s t
  | txBegin (hf : s.fetch = .op (encode .txBegin)) (h : s.st = .txBegin) :
      Effect s { s.afterFetch with irqMask := true, idx := 0, st := .txUnit }
  | txUnit (hf : s.fetch = .op (encode .txUnit)) (hr : s.phyReady = true) (v : Byte)
      (hv : s.mem.byte? s.sel s.idx.toNat = some v) (i : BitVec 7) (st : SeqState) :
      Effect s { s.afterFetch.sendUnit v with idx := i, st := st }
  | txEnd (hf : s.fetch = .op (encode .txEnd)) (h : s.st = .txEnd) (hb : s.phyBusy = false) :
      Effect s { s.afterFetch with
        irqMask := false, epoch := if s.ovfPending then s.epoch + 1 else s.epoch, ovfPending := false, st := .planSnap }
  | snap (hf : s.fetch = .op (encode .planSnap)) (h : s.st = .planSnap) : Effect s s.afterFetch.snap
  | tick (hf : s.fetch = .op (encode .tickAdv)) (he : tickEnabled s = true) : Effect s s.afterFetch.advanceTick
  | epochInc (hf : s.fetch = .op (encode .epochInc)) : Effect s s.afterFetch.takeTickInterrupt

/-- The effect of SEQ's move after the fetch. -/
theorem SeqMove.effect {s t : State} (hf : s.fetch = .op (encode (seqInstr s.st))) (h : SeqMove s.afterFetch t) :
    Effect s t := by
  have hk := controlKept_afterFetch s
  have hst := s.afterFetch_st
  cases h with
  | stuck => exact .kept hk
  | boot _ => exact .kept (s.afterFetch.bootBuild_datapathOnly.controlKept.goTo _ _)
  | buildTs _ _ => exact .kept ((s.afterFetch.tsBuild_datapathOnly _ _).controlKept.goTo _ _)
  | buildId _ _ | wait _ _ => exact .kept (hk.goTo _ _)
  | txBegin h => rw [hst] at h; rw [h] at hf; exact .txBegin hf h
  | txUnit h hr v hi hv =>
    rw [hst] at h; rw [h] at hf
    exact .txUnit hf (by simpa using hr) v (by simpa using hv) _ _
  | txEnd h hb =>
    rw [hst] at h; rw [h] at hf
    simpa using Effect.txEnd hf h (by simpa using hb)
  | snap h _ => rw [hst] at h; rw [h] at hf; exact .snap hf h

/-- All that a step can answer as its next state, by what was fetched. -/
theorem step_next_fetch {s t : State} (h : step s = .next t) :
    (∃ i, s.fetch = .op (encode i) ∧ exec i s.afterFetch = .next t) ∨
      (∃ τ, s.fetch = .outside τ ∧ t = s.afterFetch.drive τ) ∨ (s.fetch = .held ∧ t = s.afterFetch) := by
  cases hf : s.fetch with
  | op w =>
    cases hd : decode w with
    | ok i =>
      rw [step_of_fetch_op hf hd] at h
      exact .inl ⟨i, by rw [(decode_eq_ok_iff_encode w i).mp hd], h⟩
    | error r => rw [step_of_fetch_undecodable hf hd] at h; cases h
  | outside τ => exact .inr (.inl ⟨τ, rfl, next_unique h (step_of_fetch_outside hf)⟩)
  | held => exact .inr (.inr ⟨rfl, next_unique h (step_of_fetch_held hf)⟩)

/-- Every step other than a reset has one of the effects. -/
theorem step_effect {s t : State} (hr : s.resets = false) (h : step s = .next t) : Effect s t := by
  rcases step_next_fetch h with ⟨i, hf, he⟩ | ⟨τ, hf, rfl⟩ | ⟨_, rfl⟩
  · cases exec_effect he with
    | datapath hd => exact .kept hd.controlKept
    | seq hm => rw [State.afterFetch_st] at hf; exact hm.effect hf
    | tick hen => exact .tick hf (by simpa using hen)
    | epochInc => exact .epochInc hf
  · refine .kept (controlKept_drive s ?_)
    rintro rfl
    rw [resets_iff.mpr hf] at hr; cases hr
  · exact .kept (controlKept_afterFetch s)

end Sys2Proof.Machine
end

section
/-! PROOFS. Who writes `cyc`, `nxt_sync`, `led`, `epoch`, `irq_mask` and the line (10_state.md section 4,
44_scheduler.md R135, R140, R143), and that no tick is lost (70_reset_and_hazards.md R187). -/

namespace Sys2Proof.Machine

/-! ### The cycle counter -/

theorem snaps_iff {s : State} : s.snaps = true ↔ s.fetch = .op (encode .planSnap) ∧ s.st = .planSnap := by
  simp [State.snaps, encode]

theorem ticks_iff {s : State} : s.ticks = true ↔ s.fetch = .op (encode .tickAdv) ∧ tickEnabled s = true := by
  simp [State.ticks, encode]

theorem resets_of_fetch_op {s : State} {w : OpWord} (h : s.fetch = .op w) : s.resets = false := by
  simp [State.resets, h]

/-- What is fetched as an operation's own word runs that operation. -/
theorem step_of_fetch_encode {s : State} {i : Instr} (hf : s.fetch = .op (encode i)) :
    step s = exec i s.afterFetch := step_of_fetch_op hf (decode_encode i)

/-- An enabled PLAN.SNAP that has a next state takes the snapshot. -/
theorem step_of_snaps {s t : State} (hs : s.snaps = true) (h : step s = .next t) : t = s.afterFetch.snap := by
  obtain ⟨hf, hst⟩ := snaps_iff.mp hs
  rw [step_of_fetch_encode hf, exec_planSnap_of (by simpa using hst)] at h
  split at h
  · cases h; rfl
  · cases h

/-- Only PLAN.SNAP writes what it plans with. -/
theorem plan_kept_of_not_snaps {s t : State} (hr : s.resets = false) (hs : s.snaps = false) (h : step s = .next t) :
    t.cyc = s.cyc ∧ t.nxtSync = s.nxtSync ∧ t.led = s.led := by
  cases step_effect hr h with
  | kept h => exact ⟨h.cyc, h.nxtSync, h.led⟩
  | txBegin | txUnit | txEnd | tick | epochInc => simp
  | snap hf hst => rw [snaps_iff.mpr ⟨hf, hst⟩] at hs; cases hs

/-- Settles O47: an enabled PLAN.SNAP takes the snapshot, and no other effect writes `cyc` or `nxt_sync`. -/
theorem onlyPlanSnapAdvancesCycle : Obligations.OnlyPlanSnapAdvancesCycle := by
  refine fun s t hc hr h => ⟨fun hs => ?_, fun hs => ?_⟩
  · rw [step_of_snaps hs h]
    have hcyc : s.afterFetch.snap.cyc.toNat = (s.cyc.toNat + 1) % 667 := by
      rw [← cycNext_toNat, ← s.afterFetch_cyc]; rfl
    have hsync : s.afterFetch.snap.nxtSync = decide (s.cyc.toNat = 666) := by
      rw [← nextSync_eq, ← s.afterFetch_cyc]; rfl
    have hzero : s.afterFetch.snap.cyc = 0 ↔ s.cyc.toNat = 666 := by
      rw [← BitVec.toNat_inj, hcyc]; simp; omega
    exact ⟨hcyc, by rw [hsync, decide_eq_decide, hzero]⟩
  · obtain ⟨hcyc, hsync, -⟩ := plan_kept_of_not_snaps hr hs h
    exact ⟨hcyc, hsync⟩

/-- Settles O48: by induction on the run, each of its steps by O47's. -/
theorem cadenceOfTimeSync : Obligations.CadenceOfTimeSync := by
  intro n s t hrun hc
  induction hrun with
  | start s => exact ⟨by omega, fun h => absurd h (by omega)⟩
  | @plan n s t u _ hs h ih =>
    obtain ⟨hcyc, -⟩ := ih hc
    obtain ⟨hcyc', hsync'⟩ := (onlyPlanSnapAdvancesCycle t u (by omega)
      (resets_of_fetch_op (snaps_iff.mp hs).1) h).1 hs
    have hcyc : u.cyc.toNat = (s.cyc.toNat + (n + 1)) % 667 := by omega
    refine ⟨hcyc, fun _ => ?_⟩
    rw [hsync', ← hcyc, decide_eq_decide, ← BitVec.toNat_inj]; rfl
  | other _ hs hr h ih =>
    obtain ⟨hcyc, hsync⟩ := ih hc
    obtain ⟨hcyc', hsync'⟩ := (onlyPlanSnapAdvancesCycle _ _ (by omega) hr h).2 hs
    rw [hcyc', hsync']
    exact ⟨hcyc, hsync⟩

/-- Settles O50: PLAN.SNAP sets `led` by the `nxt_sync` it sets, and nothing else writes either. -/
theorem ledShowsNextFrame : Obligations.LedShowsNextFrame := by
  intro s t hr h
  cases hs : s.snaps with
  | true => rw [step_of_snaps hs h]; exact .inr ⟨ledAfter_eq _, rfl⟩
  | false =>
    obtain ⟨-, hsync, hled⟩ := plan_kept_of_not_snaps hr hs h
    exact .inl ⟨hled, hsync⟩

/-! ### Epoch, mask and line -/

/-- Settles O54: the effects that write `epoch` are the tick's, TX.END's and EPOCH.INC's. -/
theorem epochOnlyByHandler : Obligations.EpochOnlyByHandler := by
  intro s t hr h
  cases step_effect hr h with
  | kept h => exact .inl h.epoch
  | txBegin | txUnit | snap => exact .inl s.afterFetch_epoch
  | txEnd hf hst hb =>
    cases ho : s.ovfPending with
    | false => exact .inl (by simp)
    | true => exact .inr ⟨by simp, .inr (.inl ⟨hf, hst, hb, rfl⟩)⟩
  | tick hf _ =>
    rcases s.afterFetch.advanceTick_cases with ⟨_, e⟩ | ⟨_, _, e⟩ | ⟨hw, hm, e⟩ <;> rw [e]
    · exact .inl s.afterFetch_epoch
    · exact .inl s.afterFetch_epoch
    · rw [tick_succ_eq_zero, s.afterFetch_tickCnt] at hw
      rw [s.afterFetch_irqMask] at hm
      exact .inr ⟨congrArg (· + 1) s.afterFetch_epoch, .inl ⟨hf, hw, hm⟩⟩
  | epochInc hf => exact .inr ⟨congrArg (· + 1) s.afterFetch_epoch, .inr (.inr hf)⟩

/-- Settles O55: the effects that write `irq_mask` are TX.BEGIN's and TX.END's. -/
theorem maskOnlyByDrain : Obligations.MaskOnlyByDrain := by
  intro s t hr h
  cases step_effect hr h with
  | kept h => exact .inl h.irqMask
  | txBegin hf _ => exact .inr (.inl ⟨rfl, hf, rfl⟩)
  | txEnd hf _ _ => exact .inr (.inr ⟨rfl, hf, rfl⟩)
  | txUnit | snap | epochInc => exact .inl s.afterFetch_irqMask
  | tick => exact .inl (by simp)

/-- Settles O56: a reset keeps the line, and of the other effects TX.UNIT's alone sends. -/
theorem lineGrowsByTxUnitOnly : Obligations.LineGrowsByTxUnitOnly := by
  intro s t h
  cases hr : s.resets with
  | true =>
    rw [next_unique h (step_of_fetch_outside (resets_iff.mp hr))]
    exact .inl ⟨s.afterFetch_line, rfl⟩
  | false =>
    cases step_effect hr h with
    | kept h => exact .inl ⟨h.line, h.phySend⟩
    | txBegin | txEnd | snap | epochInc => exact .inl ⟨s.afterFetch_line, s.afterFetch_phySend⟩
    | tick => exact .inl (by simp)
    | txUnit hf hr v hv => exact .inr ⟨v, congrArg (· ++ [v]) s.afterFetch_line, rfl, rfl, hf, hr, hv⟩

/-! ### The time told -/

/-- One more on a counter of two halves carries from the low half. -/
theorem append_add_one (e t : Half) :
    (e ++ t : BitVec 32) + 1 = if t + 1 = 0 then (e + 1) ++ (0 : Half) else e ++ (t + 1) := by
  have happ : ∀ x y : Half, (x ++ y : BitVec 32).toNat = x.toNat * 65536 + y.toNat := by
    intro x y
    rw [BitVec.toNat_append, ← Nat.shiftLeft_add_eq_or_of_lt y.isLt, Nat.shiftLeft_eq]
  have he := e.isLt
  have ht := t.isLt
  apply BitVec.eq_of_toNat_eq
  split
  · next hz =>
    rw [tick_succ_eq_zero] at hz
    subst hz
    rw [BitVec.toNat_add, happ, happ, BitVec.toNat_add]
    simp; omega
  · next hz =>
    rw [tick_succ_eq_zero, ← BitVec.toNat_inj] at hz
    rw [BitVec.toNat_add, happ, happ, BitVec.toNat_add]
    simp at hz ⊢; omega

/-- A tick that is not a second wrap in one drain adds one to the time told. -/
theorem toldTime_advanceTick {s : State} (hp : s.irqMask = false → s.ovfPending = false)
    (hd : s.tickCnt = 0xFFFF → s.ovfPending = false) : s.advanceTick.toldTime = s.toldTime + 1 := by
  rw [State.toldTime, State.toldTime, append_add_one]
  rcases s.advanceTick_cases with ⟨hw, e⟩ | ⟨hw, hm, e⟩ | ⟨hw, hm, e⟩ <;> rw [e]
  · rw [if_neg hw]
  · rw [if_pos hw, hd ((tick_succ_eq_zero _).mp hw)]; simp
  · rw [if_pos hw, hp hm]; simp

theorem toldTime_afterFetch (s : State) : s.afterFetch.toldTime = s.toldTime := by
  rw [State.afterFetch_eq]; rfl

/-- EPOCH.INC runs only where it is issued. -/
theorem fetch_ne_epochInc {s : State} (hi : s.issue = none) : s.fetch ≠ .op (encode .epochInc) := by
  intro hf
  rcases fetched_of_noIssue hi hf with h | h
  · cases hst : s.st <;> simp [seqInstr, hst] at h
  · cases h

/-- Settles O40: the tick counts, latched or not; TX.END turns a latched wrap into a counted one; nothing else writes
what tells the time. -/
theorem noIncrementLost : Obligations.NoIncrementLost := by
  intro s t hcore hdrain hr h
  cases hk : s.ticks with
  | true =>
    obtain ⟨hf, hen⟩ := ticks_iff.mp hk
    rw [step_of_fetch_encode hf] at h
    rw [next_unique h (exec_tickAdv_of (tickEnabled_iff.mp (by simpa using hen))), if_pos rfl,
      toldTime_advanceTick, toldTime_afterFetch]
    · simpa using hcore.pending
    · intro hc
      cases ho : s.ovfPending with
      | false => simpa using ho
      | true => exact absurd ⟨hk, ho, by simpa using hc⟩ hdrain
  | false =>
    rw [if_neg (by simp)]
    cases step_effect hr h with
    | kept h => rw [State.toldTime, h.epoch, h.ovfPending, h.tickCnt, State.toldTime]
    | txBegin | txUnit | snap => exact toldTime_afterFetch s
    | txEnd => cases ho : s.ovfPending <;> simp [State.toldTime, ho]
    | tick hf hen => rw [ticks_iff.mpr ⟨hf, hen⟩] at hk; cases hk
    | epochInc hf => exact absurd hf (fetch_ne_epochInc hcore.noIssue)

end Sys2Proof.Machine
end

section
/-! PROOFS. The invariants of 10_state.md R35, 42_framer.md R112 and 44_scheduler.md R140: every move keeps them, a reset
starts them anew, so every step keeps them. -/

namespace Sys2Proof.Machine

/-- An invariant of the scheduler level that the fetch, every move and every reset keep, every step keeps. -/
theorem step_keeps {P : State → Prop} (hissue : ∀ s, P s → s.issue = none) (hfetch : ∀ s, P s → P s.afterFetch)
    (hmove : ∀ u t, P u → Move u t → P t) (hreset : ∀ u : State, P { u.toReset with rst := true }) :
    ∀ s t, P s → step s = .next t → P t := by
  intro s t hP h
  rcases step_next_cases (hissue s hP) h with ⟨_, rfl⟩ | ⟨_, hm⟩
  · exact hreset s.afterFetch
  · exact hmove s.afterFetch t (hfetch s hP) hm

/-! ### The core invariant -/

theorem reset_byte? (b : BufSel) (i : Nat) : State.reset.mem.byte? b i = none := by cases b <;> rfl

theorem coreInv_reset : CoreInv State.reset where
  noIssue := rfl
  cyc := by decide
  idx := by decide
  idxUnit := fun h => nomatch h
  ident := by decide
  mask := by decide
  pending := fun _ => rfl
  srLow := by decide
  memWf := reset_mem_wf
  symbols := fun b i v h => by rw [reset_byte?] at h; cases h
  differ := by decide
  window := by decide
  planned := by decide

theorem CoreInv.afterFetch {s : State} (h : CoreInv s) : CoreInv s.afterFetch := by
  have hi := State.afterFetch_noIssue h.noIssue
  rw [State.afterFetch_eq, hi]
  exact { h with noIssue := rfl }

/-- Outside a drain the interrupt is unmasked. -/
theorem CoreInv.unmasked {s : State} (h : CoreInv s) (hu : s.st ≠ .txUnit) (he : s.st ≠ .txEnd) :
    s.irqMask = false := by
  rw [← Bool.not_eq_true, h.mask]; tauto

theorem encRegister_low (w : Codeword) {j : Nat} (hj : j < 8) : (encRegister w 40).getLsbD j = false := by
  rw [encRegister_getLsbD w 40 (by omega), insertedBit, if_neg (by omega), Bool.and_false]

theorem CoreInv.boot {u : State} (h : CoreInv u) (hst : u.st = .boot) :
    CoreInv { u.idBuild.frmConst .ts with st := .txBegin } := by
  have hb := u.bootBuild_spec
  have heq := u.bootBuild_eq
  have hm : u.irqMask = false := h.unmasked (by simp [hst]) (by simp [hst])
  generalize u.idBuild.frmConst .ts = x at hb heq
  rw [heq]
  exact { h with
    idxUnit := fun e => nomatch e
    ident := by rw [hb.ident, refIdentity_toNat]; exact refIdentity_le u.uid
    mask := by simp [hm]
    srLow := fun j hj => by rw [hb.sr]; exact encRegister_low _ hj
    memWf := hb.wf h.memWf
    symbols := hb.allSymbols h.symbols
    planned := by simp }

theorem CoreInv.buildTs {u : State} (h : CoreInv u) (hst : u.st = .planBuild) :
    CoreInv { u.tsBuild u.deadline u.eval with sel := .ts, st := .wait } := by
  obtain ⟨heq, he⟩ := u.tsBuild_spec u.deadline u.eval
  have hm : u.irqMask = false := h.unmasked (by simp [hst]) (by simp [hst])
  generalize u.tsBuild u.deadline u.eval = x at heq he
  rw [heq]
  exact { h with
    idxUnit := fun e => nomatch e
    mask := by simp [hm]
    srLow := fun j hj => encRegister_low _ hj
    memWf := he.wf h.memWf
    symbols := he.allSymbols h.symbols
    planned := fun _ => h.planned (.inl hst) }

theorem CoreInv.txUnit {u : State} (h : CoreInv u) (hst : u.st = .txUnit) (v : Byte) (hi : u.idx.toNat < 104) :
    CoreInv { u.sendUnit v with idx := u.idx + 1, st := if drained (u.idx + 1) then .txEnd else u.st } := by
  have hidx := idx_succ_toNat hi
  have hm : u.irqMask = true := h.mask.mpr (.inl hst)
  rw [drained_succ u.idx hi, hst]
  exact { h with
    idx := by simp only [hidx]; omega
    idxUnit := by simp only [hidx, decide_eq_true_eq]; split <;> simp; omega
    mask := by simp only [decide_eq_true_eq]; split <;> simp [hm]
    planned := by simp only [decide_eq_true_eq]; split <;> simp }

theorem CoreInv.snap {u : State} (h : CoreInv u) (hst : u.st = .planSnap) (hj : u.jitterIn.toNat ≤ 9) :
    CoreInv u.snap := by
  have hm : u.irqMask = false := h.unmasked (by simp [hst]) (by simp [hst])
  have hwin : (u.snap.deadline - u.snap.now).toNat = 10 + u.jitterIn.toNat := deadlineOf_sub_toNat _ _
  exact { h with
    cyc := by have : u.snap.cyc.toNat = _ := cycNext_toNat u.cyc; omega
    idxUnit := fun e => nomatch e
    mask := by simp [State.snap, hm]
    differ := deadlineOf_ne _ _
    window := fun _ => by omega
    planned := fun _ => ledAfter_eq _ }

theorem CoreInv.tick {u : State} (h : CoreInv u) : CoreInv u.advanceTick := by
  rcases u.advanceTick_cases with ⟨_, e⟩ | ⟨_, hm, e⟩ | ⟨_, _, e⟩ <;> rw [e]
  · exact { h with }
  · exact { h with pending := fun hf => by simp [hm] at hf }
  · exact { h with pending := fun _ => rfl }

theorem CoreInv.move {u t : State} (h : CoreInv u) (hmove : Move u t) : CoreInv t := by
  cases hmove with
  | stuck => exact h
  | boot hst => exact h.boot hst
  | txBegin _ =>
    exact { h with idx := by simp, idxUnit := by simp, mask := by simp, pending := by simp, planned := by simp }
  | txUnit hst _ v hi _ => exact h.txUnit hst v hi
  | txEnd _ _ => exact { h with idxUnit := by simp, mask := by simp, pending := by simp, planned := by simp }
  | snap hst hj => exact h.snap hst hj
  | buildId hst _ =>
    have hm : u.irqMask = false := h.unmasked (by simp [hst]) (by simp [hst])
    exact { h with idxUnit := by simp, mask := by simp [hm], planned := fun _ => h.planned (.inl hst) }
  | buildTs hst _ => exact h.buildTs hst
  | wait hst _ =>
    have hm : u.irqMask = false := h.unmasked (by simp [hst]) (by simp [hst])
    exact { h with idxUnit := by simp, mask := by simp [hm], planned := by simp }
  | tick _ => exact h.tick
  | phy _ _ | jitter _ | release => exact { h with }

/-- Settles O42: each move keeps each clause, and a reset is at the values of `coreInv_reset`. -/
theorem coreInvKeptByStep : Obligations.CoreInvKeptByStep :=
  step_keeps (fun _ h => h.noIssue) (fun _ h => h.afterFetch) (fun _ _ h hm => h.move hm)
    fun _ => { coreInv_reset with }

/-! ### The framed buffers -/

/-- In BOOT, with the identity buffer selected, nothing is asked of the buffers. -/
theorem frameInv_of_boot {s : State} (hi : s.issue = none) (hst : s.st = .boot) (hsel : s.sel = .id) : FrameInv s where
  noIssue := hi
  bootSel := fun _ => hsel
  ident := fun h => absurd hst h
  idConst := fun h => absurd hst h
  idCoded := fun h => absurd hst h
  tsConst := fun h => absurd hst h
  tsCoded := fun h => by rw [hsel] at h; cases h

theorem FrameInv.afterFetch {s : State} (h : FrameInv s) : FrameInv s.afterFetch := by
  have hi := State.afterFetch_noIssue h.noIssue
  rw [State.afterFetch_eq, hi]
  exact { h with noIssue := rfl }

/-- Past BOOT SEQ may go on to any other state. -/
theorem FrameInv.goTo {u : State} (h : FrameInv u) (hst : u.st ≠ .boot) {st : SeqState} (hst' : st ≠ .boot) :
    FrameInv { u with st := st } where
  noIssue := h.noIssue
  bootSel := fun e => absurd e hst'
  ident := fun _ => h.ident hst
  idConst := fun _ => h.idConst hst
  idCoded := fun _ => h.idCoded hst
  tsConst := fun _ => h.tsConst hst
  tsCoded := h.tsCoded

theorem FrameInv.boot {u : State} (h : FrameInv u) (hst : u.st = .boot) :
    FrameInv { u.idBuild.frmConst .ts with st := .txBegin } := by
  have hb := u.bootBuild_spec
  have heq := u.bootBuild_eq
  generalize u.idBuild.frmConst .ts = x at hb heq
  rw [heq]
  exact {
    noIssue := h.noIssue
    bootSel := fun e => nomatch e
    ident := fun _ => by rw [hb.ident, refIdentity_toNat]
    idConst := fun _ => hb.idConst
    idCoded := fun _ => hb.cw ▸ hb.idCoded
    tsConst := fun _ => hb.tsConst
    tsCoded := fun e => by have : u.sel = .ts := e; rw [h.bootSel hst] at this; cases this }

theorem FrameInv.buildTs {u : State} (h : FrameInv u) (hst : u.st = .planBuild) :
    FrameInv { u.tsBuild u.deadline u.eval with sel := .ts, st := .wait } := by
  have hboot : u.st ≠ .boot := by simp [hst]
  obtain ⟨heq, he⟩ := u.tsBuild_spec u.deadline u.eval
  generalize u.tsBuild u.deadline u.eval = x at heq he
  rw [heq]
  exact {
    noIssue := h.noIssue
    bootSel := fun e => nomatch e
    ident := fun _ => h.ident hboot
    idConst := fun _ => (h.idConst hboot).mono fun i _ => he.kept .id i (.inl (by decide))
    idCoded := fun _ => (h.idCoded hboot).mono fun i _ => he.kept .id i (.inl (by decide))
    tsConst := fun _ => (h.tsConst hboot).mono fun i hi => he.kept .ts i (.inr hi)
    tsCoded := fun _ => ⟨_, _, he.coded⟩ }

theorem FrameInv.move {u t : State} (h : FrameInv u) (hmove : Move u t) : FrameInv t := by
  cases hmove with
  | stuck => exact h
  | boot hst => exact h.boot hst
  | txBegin hst => exact { h.goTo (by simp [hst]) (st := .txUnit) (by simp) with }
  | txUnit hst _ _ _ _ =>
    have hboot : u.st ≠ .boot := by simp [hst]
    exact { h.goTo hboot (st := if drained (u.idx + 1) then .txEnd else u.st) (by split <;> simp [hst]) with }
  | txEnd hst _ => exact { h.goTo (by simp [hst]) (st := .planSnap) (by simp) with }
  | snap hst _ => exact { h.goTo (by simp [hst]) (st := .planBuild) (by simp) with }
  | buildId hst _ =>
    exact { h.goTo (by simp [hst]) (st := .wait) (by simp) with
      bootSel := fun _ => rfl, tsCoded := fun e => nomatch e }
  | buildTs hst _ => exact h.buildTs hst
  | wait hst _ => exact h.goTo (by simp [hst]) (by simp)
  | tick _ => rw [u.advanceTick_eq]; exact { h with }
  | phy _ _ | jitter _ | release => exact { h with }

/-- Settles O43: BOOT frames both buffers, TS.BUILD replaces the time-sync codeword, and nothing else writes them. -/
theorem frameInvKeptByStep : Obligations.FrameInvKeptByStep :=
  step_keeps (fun _ h => h.noIssue) (fun _ h => h.afterFetch) (fun _ _ h hm => h.move hm)
    fun _ => frameInv_of_boot rfl rfl rfl

end Sys2Proof.Machine
end

section
/-! PROOFS. The invariants of 44_scheduler.md R140 and R142 and of the line trace (10_state.md R11), and what the framed
buffers exclude (93_implementation_defined.md U11). -/

namespace Sys2Proof.Machine

/-! ### The selected buffer -/

theorem Selected.afterFetch {s : State} (h : Selected s) : Selected s.afterFetch :=
  ⟨State.afterFetch_noIssue h.noIssue, by simpa using h.sel⟩

/-- Where SEQ goes next from outside PLAN_BUILD is no part of it. -/
theorem Selected.goTo {u : State} (h : Selected u) (hst : u.st ≠ .planBuild) (st : SeqState) :
    Selected { u with st := st } :=
  ⟨h.noIssue, fun _ => h.sel hst⟩

theorem Selected.move {u t : State} (h : Selected u) (hmove : Move u t) : Selected t := by
  cases hmove with
  | stuck => exact h
  | boot hst =>
    have heq := u.bootBuild_eq
    generalize u.idBuild.frmConst .ts = x at heq
    rw [heq]
    exact { h.goTo (by simp [hst]) .txBegin with }
  | txBegin hst => exact { h.goTo (by simp [hst]) .txUnit with }
  | txUnit hst _ _ _ _ => exact { h.goTo (by simp [hst]) (if drained (u.idx + 1) then .txEnd else u.st) with }
  | txEnd hst _ => exact { h.goTo (by simp [hst]) .planSnap with }
  | snap _ _ => exact ⟨h.noIssue, fun hst => absurd rfl hst⟩
  | buildId _ hn => exact ⟨h.noIssue, fun _ => by simp [hn]⟩
  | buildTs _ hn =>
    rw [State.tsBuild_eq]
    exact ⟨h.noIssue, fun _ => by simp [hn]⟩
  | wait hst _ => exact h.goTo (by simp [hst]) .txBegin
  | tick _ => rw [u.advanceTick_eq]; exact { h with }
  | phy _ _ | jitter _ | release => exact { h with }

theorem selected_reset : Selected State.reset := ⟨rfl, fun _ => by decide⟩

/-- Settles O49: PLAN.BUILD selects by `nxt_sync`, and PLAN.SNAP, which writes it, goes to PLAN_BUILD. -/
theorem selectedKeptByStep : Obligations.SelectedKeptByStep :=
  step_keeps (fun _ h => h.noIssue) (fun _ h => h.afterFetch) (fun _ _ h hm => h.move hm)
    fun _ => { selected_reset with }

/-! ### The announcement -/

/-- Away from PLAN_BUILD and WAIT, and where the next frame is none of time-sync, nothing is announced. -/
theorem announced_of_idle {s : State} (h : s.nxtSync = true → s.st ≠ .planBuild ∧ s.st ≠ .wait) : Announced s where
  notPassed := fun hn hst => absurd hst (not_or.mpr (h hn))
  wraps := fun hn hst => absurd hst (not_or.mpr (h hn))
  carried := fun hn hst => absurd hst (h hn).2

/-- A counter that has not reached the deadline, advanced, has not passed it. -/
theorem tick_notPassed {now tick deadline : Half} (hle : (tick - now).toNat ≤ (deadline - now).toNat)
    (hne : tick ≠ deadline) : (tick + 1 - now).toNat ≤ (deadline - now).toNat := by
  have hne' : (tick - now).toNat ≠ (deadline - now).toNat := by
    intro h
    exact hne (by bv_omega)
  have hlt : (deadline - now).toNat < 65536 := (deadline - now).isLt
  bv_omega

/-- Short of the last count after the snapshot, an advance that does not wrap does not come down to it. -/
theorem lt_now_tick {now tick : Half} (hfar : (tick - now).toNat < 65535) (hw : tick + 1 ≠ 0) :
    tick + 1 < now ↔ tick < now := by
  have hw' : tick.toNat ≠ 65535 := fun h => hw ((tick_succ_eq_zero tick).mpr (BitVec.eq_of_toNat_eq h))
  bv_omega

/-- A wrap leaves the counter below the snapshot, and found it not below. -/
theorem lt_now_wrap {now tick : Half} (hfar : (tick - now).toNat < 65535) (hw : tick + 1 = 0) :
    (0 : Half) < now ∧ ¬ tick < now := by
  obtain rfl := (tick_succ_eq_zero tick).mp hw
  bv_omega

theorem Announced.afterFetch {s : State} (h : Announced s) : Announced s.afterFetch := by
  rw [State.afterFetch_eq]
  exact { h with }

theorem announced_snap (u : State) : Announced u.snap where
  notPassed := fun _ _ => by
    have : (u.snap.tickCnt - u.snap.now) = 0 := BitVec.sub_self _
    rw [this]; exact Nat.zero_le _
  wraps := fun hn _ => by
    have heval : u.snap.eval = epochAt u.epoch u.snap.deadline u.tickCnt := if_pos hn
    have hlt : ¬ u.snap.tickCnt < u.snap.now := by show ¬ u.tickCnt < u.tickCnt; simp
    rw [heval, if_neg hlt, epochAt, wrapsBefore]
    show (if decide (u.snap.deadline ≤ u.tickCnt) = true then u.epoch + 1 else u.epoch) -
      (if u.snap.deadline ≤ u.tickCnt then 1 else 0) = u.epoch - 0
    by_cases hw : u.snap.deadline ≤ u.tickCnt <;> simp [hw]
  carried := fun _ hst => nomatch hst

theorem Announced.tick {u : State} (hcore : CoreInv u) (h : Announced u) (hplan : PlanInTime u)
    (hen : ¬ (u.st = .wait ∧ u.tickCnt = u.deadline)) : Announced u.advanceTick := by
  by_cases hidle : u.nxtSync = true → u.st ≠ .planBuild ∧ u.st ≠ .wait
  · rw [u.advanceTick_eq]; exact announced_of_idle hidle
  have hn : u.nxtSync = true := by tauto
  have hst : u.st = .planBuild ∨ u.st = .wait := by tauto
  obtain ⟨hlo, hhi⟩ := hcore.window (.inr hn)
  have hle := h.notPassed hn hst
  have hfar : (u.tickCnt - u.now).toNat < 65535 := by omega
  have hne : u.tickCnt ≠ u.deadline := by
    rintro he
    rcases hst with hst | hst
    · have := hplan hst
      rw [he] at this; omega
    · exact hen ⟨hst, he⟩
  have hmask : u.irqMask = false := by rcases hst with e | e <;> exact hcore.unmasked (by simp [e]) (by simp [e])
  have hpassed := tick_notPassed hle hne
  have hwraps := h.wraps hn hst
  rcases u.advanceTick_cases with ⟨hw, e⟩ | ⟨_, hm, _⟩ | ⟨hw, _, e⟩
  · rw [e]
    exact ⟨fun _ _ => hpassed, fun _ _ => by simp only [lt_now_tick hfar hw]; exact hwraps, h.carried⟩
  · rw [hmask] at hm; cases hm
  · rw [e]
    obtain ⟨hpos, hnot⟩ := lt_now_wrap hfar hw
    rw [hw] at hpassed
    refine ⟨fun _ _ => hpassed, fun _ _ => ?_, h.carried⟩
    rw [if_neg hnot] at hwraps
    show _ = u.epoch + 1 - (if (0 : Half) < u.now then 1 else 0)
    rw [if_pos hpos, hwraps]; simp

theorem Announced.move {u t : State} (hcore : CoreInv u) (h : Announced u) (hplan : PlanInTime u) (hmove : Move u t) :
    Announced t := by
  cases hmove with
  | stuck => exact h
  | boot _ | txBegin _ | txEnd _ _ | wait _ _ => exact announced_of_idle fun _ => by simp
  | txUnit hst _ _ _ _ => exact announced_of_idle fun _ => by dsimp only; split <;> simp [hst]
  | snap _ _ => exact announced_snap u
  | buildId _ hn => exact announced_of_idle fun hn' => absurd (hn.symm.trans hn') (by simp)
  | buildTs hst hn =>
    have hcoded := u.tsBuild_coded u.deadline u.eval
    have heq := u.tsBuild_eq u.deadline u.eval
    generalize u.tsBuild u.deadline u.eval = x at hcoded heq
    rw [heq]
    exact ⟨fun _ _ => h.notPassed hn (.inl hst), fun _ _ => h.wraps hn (.inl hst), fun _ _ => ⟨rfl, hcoded⟩⟩
  | tick hen => exact h.tick hcore hplan hen
  | phy _ _ | jitter _ | release => exact { h with }

/-- Settles O45: from the snapshot on each tick counts, and PLAN.BUILD writes what was planned. -/
theorem announcedKeptByStep : Obligations.AnnouncedKeptByStep := by
  intro s t hcore h hplan hs
  rcases step_next_cases hcore.noIssue hs with ⟨_, rfl⟩ | ⟨_, hm⟩
  · exact announced_of_idle fun hn => nomatch hn
  · refine h.afterFetch.move hcore.afterFetch ?_ hm
    rw [State.afterFetch_eq]; exact hplan

/-- Settles O46: at the deadline the wraps still to come are none, so the epoch is the announced one. -/
theorem timeSyncBeaconTellsTheTruth : Obligations.TimeSyncBeaconTellsTheTruth := by
  intro s hcore h hst hn hd
  obtain ⟨hsel, hcoded⟩ := h.carried hn hst
  have hiff : s.deadline ≤ s.now ↔ s.deadline < s.now := by
    have := hcore.differ
    bv_omega
  have hwraps := h.wraps hn (.inr hst)
  simp only [hd, hiff] at hwraps
  have hepoch : s.epoch = s.eval := (sub_left_inj.mp hwraps).symm
  refine ⟨_, exec_wait_of hst hd, rfl, hsel, hepoch, ?_⟩
  show Coded s.mem .ts (refCodeword (refTsPayload s.tickCnt s.epoch))
  rw [hd, hepoch]; exact hcoded

end Sys2Proof.Machine
end

section
/-! PROOFS. What the framed buffers give the drain (93_implementation_defined.md U11, 10_state.md R11): no read faults,
the line is whole beacons, and what is framed stays. -/

namespace Sys2Proof.Machine

/-! ### No fault -/

/-- Past BOOT the selected buffer is framed with a codeword of a beacon of this device. -/
theorem FrameInv.selected {s : State} (h : FrameInv s) (hst : s.st ≠ .boot) :
    ∃ w, ConstFramed s.mem s.pre s.sel ∧ Coded s.mem s.sel w ∧ IsBeacon s.pre s.uid (frameOf s.pre w) := by
  cases hsel : s.sel with
  | id =>
    have hident : s.ident = BitVec.ofNat 24 (refIdentity s.uid) := by
      rw [← h.ident hst, BitVec.ofNat_toNat, BitVec.setWidth_eq]
    exact ⟨_, h.idConst hst, h.idCoded hst, .inl (by rw [hident])⟩
  | ts =>
    obtain ⟨d, e, hcoded⟩ := h.tsCoded hsel
    exact ⟨_, h.tsConst hst, hcoded, .inr ⟨d, e, rfl⟩⟩

theorem memRead_ne_error {s : State} (hcore : CoreInv s) (h : FrameInv s) (hst : s.st = .txUnit) (f : Fault) :
    s.memRead s.sel s.idx.toNat ≠ .error f := by
  have hi : s.idx.toNat < 104 := Nat.lt_succ_of_le (hcore.idxUnit hst)
  obtain ⟨w, hconst, hcoded, -⟩ := h.selected (by simp [hst])
  obtain ⟨v, hv, -⟩ := symbolAt_of_framed hconst hcoded hi
  rw [State.memRead_ok.mpr ⟨hi, hv⟩]
  exact fun he => nomatch he

/-- Settles O44: a fault is a read of a byte the drain's buffer does not hold, and a refusal PLAN.SNAP's. -/
theorem noFaultUnderInvariants : Obligations.NoFaultUnderInvariants := by
  intro s hcore h
  rcases step_cases hcore.noIssue with ⟨_, he⟩ | ⟨_, t, he, _⟩ | ⟨_, _, hst, f, _, hm⟩ | ⟨hr, ht, hst, hj, he⟩
  · rw [he]; exact ⟨fun _ hf => (nomatch hf), fun _ hr => (nomatch hr)⟩
  · rw [he]; exact ⟨fun _ hf => (nomatch hf), fun _ hr => (nomatch hr)⟩
  · have := memRead_ne_error hcore.afterFetch h.afterFetch (by simpa using hst) f
    simp only [State.afterFetch_sel, State.afterFetch_idx] at this
    exact absurd hm this
  · have hsnaps : s.snaps = true := snaps_iff.mpr
      ⟨by rw [State.fetch_of_noIssue hcore.noIssue, hr, ht, hst]; rfl, hst⟩
    rw [he]
    exact ⟨fun _ hf => (nomatch hf), fun r hr => ⟨by cases hr; rfl, hj, hsnaps⟩⟩

/-! ### The line -/

/-- The units of the selected buffer that a running drain has sent: LineInv's tail. -/
def State.sentUnits (s : State) : List Byte :=
  if s.st = .txUnit then (List.range s.idx.toNat).map fun i => (s.mem.byte? s.sel i).getD 0 else []

theorem State.sentUnits_of_ne {s : State} (h : s.st ≠ .txUnit) : s.sentUnits = [] := if_neg h

/-- A line trace that is kept, with the units sent of a running drain. -/
theorem LineInv.keep {s t : State} (h : LineInv s) (hline : t.line = s.line) (hpre : t.pre = s.pre)
    (huid : t.uid = s.uid) (hsent : t.sentUnits = s.sentUnits) : LineInv t := by
  obtain ⟨⟨frames, hf, hl⟩, hsym⟩ := h
  refine ⟨⟨frames, by rw [hpre, huid]; exact hf, ?_⟩, by rw [hline]; exact hsym⟩
  rw [hline, hl]
  exact congrArg (frames.flatten ++ ·) hsent.symm

/-- A step outside the drain's units keeps what the line trace says. -/
theorem LineInv.keep_outside {s t : State} (h : LineInv s) (hline : t.line = s.line) (hpre : t.pre = s.pre)
    (huid : t.uid = s.uid) (hs : s.st ≠ .txUnit) (ht : t.sentUnits = []) : LineInv t :=
  h.keep hline hpre huid (by rw [ht, State.sentUnits_of_ne hs])

/-- One more unit of a buffer, after those before it. -/
theorem units_succ {m : Memory} {b : BufSel} {n : Nat} {v : Byte} (hv : m.byte? b n = some v) :
    (List.range (n + 1)).map (fun i => (m.byte? b i).getD 0) =
      (List.range n).map (fun i => (m.byte? b i).getD 0) ++ [v] := by
  rw [List.range_succ, List.map_append, List.map_singleton, hv]; rfl

/-- The line after TX.UNIT: whole beacons, then the units of the drain with the one just sent. -/
theorem LineInv.line_append {u : State} (h : LineInv u) (hst : u.st = .txUnit) {v : Byte}
    (hv : u.mem.byte? u.sel u.idx.toNat = some v) :
    ∃ frames : List (List Byte), (∀ f ∈ frames, IsBeacon u.pre u.uid f) ∧
      u.line ++ [v] =
        frames.flatten ++ (List.range (u.idx.toNat + 1)).map fun i => (u.mem.byte? u.sel i).getD 0 := by
  obtain ⟨⟨frames, hf, hl⟩, -⟩ := h
  exact ⟨frames, hf, by rw [hl, if_pos hst, units_succ hv, List.append_assoc]⟩

theorem LineInv.txUnit {u : State} (hcore : CoreInv u) (hframe : FrameInv u) (h : LineInv u) (hst : u.st = .txUnit)
    {v : Byte} (hi : u.idx.toNat < 104) (hv : u.mem.byte? u.sel u.idx.toNat = some v) :
    LineInv { u.sendUnit v with idx := u.idx + 1, st := if drained (u.idx + 1) then .txEnd else u.st } := by
  obtain ⟨frames, hf, hline⟩ := h.line_append hst hv
  refine ⟨?_, fun x hx => ?_⟩
  · by_cases hlast : u.idx.toNat = 103
    · obtain ⟨w, hconst, hcoded, hbeacon⟩ := hframe.selected (by simp [hst])
      rw [hlast, frame_units hconst hcoded] at hline
      refine ⟨frames ++ [frameOf u.pre w], fun f hmem => ?_, ?_⟩
      · rcases List.mem_append.mp hmem with hold | hnew
        · exact hf f hold
        · rw [List.mem_singleton.mp hnew]; exact hbeacon
      · rw [drained_succ _ hi, hlast]
        simpa using hline
    · refine ⟨frames, hf, ?_⟩
      simp only [drained_succ _ hi, hlast, decide_false, hst, idx_succ_toNat hi]
      exact hline
  · rcases List.mem_append.mp hx with hold | hnew
    · exact h.symbols x hold
    · rw [List.mem_singleton.mp hnew]; exact hcore.symbols _ _ _ hv

theorem LineInv.move {u t : State} (hcore : CoreInv u) (hframe : FrameInv u) (h : LineInv u) (hmove : Move u t) :
    LineInv t := by
  cases hmove with
  | stuck => exact h
  | boot hst =>
    have heq := u.bootBuild_eq
    generalize u.idBuild.frmConst .ts = x at heq
    rw [heq]
    exact h.keep_outside rfl rfl rfl (by simp [hst]) rfl
  | txBegin hst | txEnd hst _ | snap hst _ | buildId hst _ | wait hst _ =>
    exact h.keep_outside rfl rfl rfl (by simp [hst]) rfl
  | txUnit hst _ v hi hv => exact h.txUnit hcore hframe hst hi hv
  | buildTs hst _ =>
    have heq := u.tsBuild_eq u.deadline u.eval
    generalize u.tsBuild u.deadline u.eval = x at heq
    rw [heq]
    exact h.keep_outside rfl rfl rfl (by simp [hst]) rfl
  | tick _ => rw [u.advanceTick_eq]; exact h.keep rfl rfl rfl rfl
  | phy _ _ | jitter _ | release => exact h.keep rfl rfl rfl rfl

theorem LineInv.afterFetch {s : State} (h : LineInv s) : LineInv s.afterFetch :=
  h.keep s.afterFetch_line s.afterFetch_pre s.afterFetch_uid (by simp [State.sentUnits])

/-- Settles O51: TX.UNIT appends the next unit of the selected buffer, and the last one completes a beacon. -/
theorem lineIsWholeBeacons : Obligations.LineIsWholeBeacons := by
  intro s t hcore hframe h hr hs
  rcases step_next_cases hcore.noIssue hs with ⟨hr', _⟩ | ⟨_, hm⟩
  · rw [hr] at hr'; cases hr'
  · exact h.afterFetch.move hcore.afterFetch hframe.afterFetch hm

/-- Settles O41: nothing is framed, announced or sent, and the control state is at R34's values. -/
theorem invariantsHoldAtReset : Obligations.InvariantsHoldAtReset :=
  ⟨coreInv_reset, frameInv_of_boot rfl rfl rfl, announced_of_idle fun hn => (nomatch hn),
    ⟨⟨[], fun _ hf => (nomatch hf), rfl⟩, fun _ hv => (nomatch hv)⟩, selected_reset⟩

/-! ### What is framed stays -/

/-- The move of a step that is no reset, seen from the state before the fetch. -/
theorem step_move {s t : State} (hi : s.issue = none) (hr : s.resets = false) (h : step s = .next t) :
    Move s.afterFetch t := by
  rcases step_next_cases hi h with ⟨hr', _⟩ | ⟨_, hm⟩
  · rw [hr] at hr'; cases hr'
  · exact hm

/-- The two moves that write BUF are those of BOOT and PLAN_BUILD. -/
theorem Move.mem_kept {u t : State} (h : Move u t) (hst : u.st = .txUnit ∨ u.st = .txEnd) : t.mem = u.mem := by
  cases h with
  | boot hb => simp [hb] at hst
  | buildTs hb _ => simp [hb] at hst
  | tick _ => exact u.advanceTick_mem
  | stuck | txBegin | txUnit | txEnd | snap | buildId | wait | phy | jitter | release => rfl

/-- Past BOOT the one move that writes BUF writes the time-sync buffer, and none writes `ident` or goes to BOOT. -/
theorem Move.identity_kept {u t : State} (h : Move u t) (hst : u.st ≠ .boot) :
    SameBuffer u.mem t.mem .id ∧ t.ident = u.ident ∧ t.st ≠ .boot := by
  cases h with
  | boot hb => exact absurd hb hst
  | buildTs _ _ =>
    have hkept := fun i => u.tsBuild_kept u.deadline u.eval (c := .id) (i := i) (.inl (by decide))
    have heq := u.tsBuild_eq u.deadline u.eval
    generalize u.tsBuild u.deadline u.eval = x at hkept heq
    exact ⟨hkept, by rw [heq], by simp⟩
  | tick _ => exact ⟨fun _ => by rw [u.advanceTick_mem], u.advanceTick_ident, by rwa [u.advanceTick_st]⟩
  | txUnit hu _ _ _ _ => exact ⟨fun _ => rfl, rfl, by simp only [hu]; split <;> simp⟩
  | stuck | phy | jitter | release => exact ⟨fun _ => rfl, rfl, hst⟩
  | txBegin | txEnd | snap | buildId | wait => exact ⟨fun _ => rfl, rfl, fun e => (nomatch e)⟩

/-- Settles O57: in a drain no move writes BUF. -/
theorem buffersUntouchedDuringDrain : Obligations.BuffersUntouchedDuringDrain := by
  intro s t hi hr hst h
  rw [← s.afterFetch_mem]
  exact (step_move hi hr h).mem_kept (by simpa using hst)

/-- Settles O58: past BOOT no move writes the identity. -/
theorem identityBeaconImmutable : Obligations.IdentityBeaconImmutable := by
  intro s t hi hr hst h
  rw [← s.afterFetch_mem, ← s.afterFetch_ident]
  exact (step_move hi hr h).identity_kept (by simpa using hst)

end Sys2Proof.Machine
end

section
/-! PROOFS. A whole drain and a whole wait (44_scheduler.md R133, R137, R138), each by induction on the steps left. -/

namespace Sys2Proof.Machine

/-- From any offset, the ready TX.UNITs that are left send the rest of the buffer. -/
theorem execs_txUnit_from (f : Nat → Byte) (k : Nat) (s : State) (hst : s.st = .txUnit) (hr : s.phyReady = true)
    (hk : s.idx.toNat + (k + 1) = 104) (hf : ∀ i, i < 104 → s.mem.byte? s.sel i = some (f i)) :
    execs (List.replicate (k + 1) .txUnit) s = .next { s with
      idx := 104, st := .txEnd, phyData := f 103, phySend := true,
      line := s.line ++ (List.range (k + 1)).map fun j => f (s.idx.toNat + j) } := by
  induction k generalizing s with
  | zero =>
    have hlast : s.idx.toNat = 103 := by omega
    have hstep := txUnitSendsNextUnit s (f 103) hst hr (by omega) (by rw [hlast]; exact hf 103 (by omega))
    rw [List.replicate_succ, execs_cons_of_next hstep]
    simp only [hlast, List.replicate_zero, execs]
    rfl
  | succ k ih =>
    have hidx : (BitVec.ofNat 7 (s.idx.toNat + 1)).toNat = s.idx.toNat + 1 := by
      rw [BitVec.toNat_ofNat]; omega
    have hstep := txUnitSendsNextUnit s (f s.idx.toNat) hst hr (by omega) (hf _ (by omega))
    rw [if_neg (by omega)] at hstep
    have hrest := ih { s with
      phyData := f s.idx.toNat, phySend := true, line := s.line ++ [f s.idx.toNat],
      idx := BitVec.ofNat 7 (s.idx.toNat + 1), st := .txUnit } rfl hr (by simp only [hidx]; omega) hf
    rw [List.replicate_succ, execs_cons_of_next hstep, hrest, List.range_succ_eq_map (n := k + 1)]
    simp only [hidx, List.map_cons, List.map_map, List.append_assoc, List.singleton_append, Nat.add_zero,
      Function.comp_def, Nat.succ_eq_add_one, Nat.add_assoc, Nat.add_comm 1]

/-- Settles O52: the drain from offset 0. -/
theorem drainSendsWholeFrame : Obligations.DrainSendsWholeFrame := by
  intro s f hst hi hr hf
  rw [execs_txUnit_from f 103 s hst hr (by rw [hi]; rfl) hf, hi]
  simp

/-- A wait's ticks bring the counter to the deadline. -/
theorem execs_tickAdv_wait (d : Nat) (s : State) (hst : s.st = .wait) (hd : (s.deadline - s.tickCnt).toNat = d) :
    ∃ t, execs (List.replicate d .tickAdv) s = .next t ∧ t.tickCnt = s.deadline ∧ t.deadline = s.deadline ∧
      t.st = .wait := by
  induction d generalizing s with
  | zero => exact ⟨s, rfl, by bv_omega, rfl, hst⟩
  | succ d ih =>
    have hne : s.tickCnt ≠ s.deadline := by bv_omega
    obtain ⟨hheld, hcnt⟩ := advanceTick_held s
    obtain ⟨t, ht, htick, hdead, hwait⟩ := ih s.advanceTick (hheld.st.trans hst)
      (by rw [hheld.deadline, hcnt]; bv_omega)
    rw [hheld.deadline] at htick hdead
    rw [List.replicate_succ, execs_cons_of_next (exec_tickAdv_of fun h => hne h.2)]
    exact ⟨t, ht, htick, hdead, hwait⟩

/-- Settles O53: the wait's ticks, then the two guards at the deadline. -/
theorem waitEndsAtDeadline : Obligations.WaitEndsAtDeadline := by
  intro s hst
  obtain ⟨t, ht, htick, hdead, hwait⟩ := execs_tickAdv_wait _ s hst rfl
  have heq : t.tickCnt = t.deadline := htick.trans hdead.symm
  exact ⟨t, ht, htick, hdead, hwait, exec_tickAdv_stuck hwait heq, exec_wait_of hwait heq⟩

end Sys2Proof.Machine
end

section
/-! PROOFS. What no step reads: the heartbeat output (10_state.md R26) and, past BOOT, the identifier
(70_reset_and_hazards.md R182). A change of either goes through every operation that does not name it. -/

namespace Sys2Proof.Machine

section alter
variable {a : Bool → Bool} {b : Vector Byte 12 → Vector Byte 12}

/-- The state with its heartbeat and its identifier replaced. -/
def State.alter (a : Bool → Bool) (b : Vector Byte 12 → Vector Byte 12) (s : State) : State :=
  { s with led := a s.led, uid := b s.uid }

theorem State.alter_cw (s : State) : (s.alter a b).cw = s.cw := rfl
theorem State.alter_ident (s : State) : (s.alter a b).ident = s.ident := rfl
theorem State.alter_jitterIn (s : State) : (s.alter a b).jitterIn = s.jitterIn := rfl
theorem State.alter_ovfPending (s : State) : (s.alter a b).ovfPending = s.ovfPending := rfl
theorem State.alter_deadline (s : State) : (s.alter a b).deadline = s.deadline := rfl
theorem State.alter_eval (s : State) : (s.alter a b).eval = s.eval := rfl
theorem State.encClr_alter (s : State) : (s.alter a b).encClr = s.encClr.alter a b := rfl

theorem State.encWord_alter (s : State) (buf : BufSel) (w : Codeword) :
    (s.alter a b).encWord buf w = (s.encWord buf w).alter a b := by
  rw [State.encWord, State.encWord, State.encClr_alter]
  exact forUp_comm (State.alter a b) 40 (fun k t => t.encStep buf k (stepBit w k.val))
    (fun k t => t.encStep buf k (stepBit w k.val)) (fun _ _ => rfl) s.encClr

/-- A loop of writes whose values depend on PRE alone lets the change through. -/
theorem fill_alter (n : Nat) (buf : BufSel) (off : Fin n → Fin 104) (g : Fin n → State → Byte)
    (hg : ∀ k t, g k (State.alter a b t) = g k t) (s : State) :
    forUp n (fun k t => t.memWrite buf (off k) (g k t)) (s.alter a b) =
      (forUp n (fun k t => t.memWrite buf (off k) (g k t)) s).alter a b :=
  forUp_comm (State.alter a b) n (fun k t => t.memWrite buf (off k) (g k t))
    (fun k t => t.memWrite buf (off k) (g k t)) (fun k x => by rw [hg]; rfl) s

theorem State.frmConst_alter (s : State) (buf : BufSel) :
    (s.alter a b).frmConst buf = (s.frmConst buf).alter a b := by
  have htrain := fill_alter (a := a) (b := b) 4 buf (fun i => ⟨i.val, by omega⟩) (fun _ _ => symNeg) fun _ _ => rfl
  have hpre := fill_alter (a := a) (b := b) 16 buf (fun k => ⟨4 + k.val, by omega⟩) (fun k t => t.preByte k)
    fun _ _ => rfl
  have htrail := fill_alter (a := a) (b := b) 4 buf (fun i => ⟨100 + i.val, by omega⟩) (fun _ _ => symNeg)
    fun _ _ => rfl
  simp only [State.frmConst, htrain, hpre, htrail]

theorem State.cwMake_alter (s : State) (p : Payload) : (s.alter a b).cwMake p = (s.cwMake p).alter a b := by
  rw [State.cwMake_eq, State.cwMake_eq]; rfl

theorem State.tsBuild_alter (s : State) (d e : Half) :
    (s.alter a b).tsBuild d e = (s.tsBuild d e).alter a b := by
  simp only [State.tsBuild, State.frmCode]
  rw [State.cwMake_alter, State.alter_cw, State.encWord_alter]

theorem State.idBuild_alter (s : State) : (s.alter a id).idBuild = s.idBuild.alter a id := by
  have hd : (s.alter a id).deriveIdent = s.deriveIdent.alter a id := by
    rw [State.deriveIdent_eq, State.deriveIdent_eq]; rfl
  simp only [State.idBuild, State.frmCode]
  rw [hd, State.alter_ident, State.cwMake_alter, State.frmConst_alter, State.alter_cw, State.encWord_alter]

theorem State.advanceTick_alter (s : State) : (s.alter a b).advanceTick = s.advanceTick.alter a b := by
  simp only [State.advanceTick, State.raiseTickInterrupt, apply_ite (State.alter a b)]
  rfl

theorem whenEnabled_alter {g : Bool} {s : State} {f : State → Host.Outcome State Fault Refusal}
    (h : f (s.alter a b) = mapNext (State.alter a b) (f s)) :
    whenEnabled g (s.alter a b) f = mapNext (State.alter a b) (whenEnabled g s f) := by
  cases g
  · rfl
  · exact h

theorem exec_txUnit_alter (s : State) : exec .txUnit (s.alter a b) = mapNext (State.alter a b) (exec .txUnit s) := by
  have hread : (s.alter a b).memRead (s.alter a b).sel (s.alter a b).idx.toNat = s.memRead s.sel s.idx.toNat := rfl
  simp only [exec_txUnit, execTxUnit]
  refine whenEnabled_alter ?_
  rw [hread]
  cases s.memRead s.sel s.idx.toNat <;> rfl

theorem exec_txEnd_alter (s : State) : exec .txEnd (s.alter a b) = mapNext (State.alter a b) (exec .txEnd s) := by
  simp only [exec_txEnd, execTxEnd]
  refine whenEnabled_alter ?_
  rw [State.alter_ovfPending]
  cases s.ovfPending <;> rfl

theorem exec_planBuild_alter (s : State) :
    exec .planBuild (s.alter a b) = mapNext (State.alter a b) (exec .planBuild s) := by
  by_cases hst : s.st = .planBuild
  · cases hn : s.nxtSync with
    | false => rw [exec_planBuild_id hst hn, exec_planBuild_id (s := s.alter a b) hst hn]; rfl
    | true =>
      rw [exec_planBuild_ts hst hn, exec_planBuild_ts (s := s.alter a b) hst hn, State.tsBuild_alter,
        State.alter_deadline, State.alter_eval]
      generalize s.tsBuild s.deadline s.eval = x
      rfl
  · rw [exec_planBuild_stuck hst, exec_planBuild_stuck (s := s.alter a b) hst]; rfl

/-- Every operation but PLAN.SNAP, which writes `led`, and those that read the identifier, lets the change through. -/
theorem exec_alter {i : Instr} (s : State) (hled : i ≠ .planSnap ∨ a = id)
    (huid : (i ≠ .seqBoot ∧ i ≠ .idBuild) ∨ b = id) :
    exec i (s.alter a b) = mapNext (State.alter a b) (exec i s) := by
  cases i with
  | crc32Clr | crc32Bit | crc32Fin | crc8Clr | crc8Byte | crc8Fin | encClr | encBit | epochInc => rfl
  | crc32Byte v => rw [exec_crc32Byte, exec_crc32Byte]; rfl
  | encWord buf w | frmCode buf w => exact congrArg Host.Outcome.next (s.encWord_alter buf w)
  | frmConst buf => exact congrArg Host.Outcome.next (s.frmConst_alter buf)
  | cwMake p => exact congrArg Host.Outcome.next (s.cwMake_alter p)
  | tsBuild d e => exact congrArg Host.Outcome.next (s.tsBuild_alter d e)
  | idBuild =>
    obtain rfl : b = id := by simpa using huid
    exact congrArg Host.Outcome.next s.idBuild_alter
  | seqBoot =>
    obtain rfl : b = id := by simpa using huid
    simp only [exec_seqBoot, execSeqBoot]
    refine whenEnabled_alter ?_
    rw [State.idBuild_alter, State.frmConst_alter]
    generalize s.idBuild.frmConst .ts = x
    rfl
  | txBegin =>
    simp only [exec_txBegin, execTxBegin]
    exact whenEnabled_alter rfl
  | txUnit => exact exec_txUnit_alter s
  | txEnd => exact exec_txEnd_alter s
  | planSnap =>
    obtain rfl : a = id := by simpa using hled
    simp only [exec_planSnap, execPlanSnap]
    refine whenEnabled_alter ?_
    rw [State.alter_jitterIn]
    cases jitterInContract s.jitterIn <;> rfl
  | planBuild => exact exec_planBuild_alter s
  | wait =>
    simp only [exec_wait, execWait]
    exact whenEnabled_alter rfl
  | tickAdv =>
    simp only [exec_tickAdv, execTickAdv]
    refine whenEnabled_alter ?_
    rw [State.advanceTick_alter]; rfl

/-! ### Steps -/

theorem State.fetch_alter (s : State) : (s.alter a b).fetch = s.fetch := rfl

theorem State.dropTurn_of_nil {s : State} (h : s.turns = []) : s.dropTurn = { s with draws := s.draws + 1 } := by
  rw [State.dropTurn, h]

theorem State.dropTurn_of_cons {s : State} {τ : Turn} {τs : List Turn} (h : s.turns = τ :: τs) :
    s.dropTurn = { s with turns := τs } := by
  rw [State.dropTurn, h]

theorem State.dropTurn_alter (s : State) : (s.alter a b).dropTurn = s.dropTurn.alter a b := by
  cases ht : s.turns with
  | nil => rw [State.dropTurn_of_nil ht, State.dropTurn_of_nil (s := s.alter a b) ht]; rfl
  | cons τ τs => rw [State.dropTurn_of_cons ht, State.dropTurn_of_cons (s := s.alter a b) ht]; rfl

theorem State.afterFetch_alter (s : State) : (s.alter a b).afterFetch = s.afterFetch.alter a b := by
  cases hi : s.issue with
  | none =>
    rw [State.afterFetch_of_noIssue hi, State.afterFetch_of_noIssue (s := s.alter a b) hi, State.dropTurn_alter]; rfl
  | some w =>
    cases hr : s.rst with
    | true =>
      rw [State.afterFetch_of_rst hr, State.afterFetch_of_rst (s := s.alter a b) hr, State.dropTurn_alter]; rfl
    | false =>
      rw [State.afterFetch_of_issue hr hi, State.afterFetch_of_issue (s := s.alter a b) hr hi]; rfl

/-- What a move of PHY or ENV leaves does not depend on `led`, but that a reset clears it. -/
theorem drive_alter (s : State) (τ : Turn) (h : τ ≠ .rst true ∨ a = id) :
    (s.alter a b).drive τ = (s.drive τ).alter a b := by
  cases τ with
  | rst l =>
    cases l with
    | false => rfl
    | true => obtain rfl : a = id := by simpa using h
              rfl
  | seq | tick | phy | jitter => rfl

/-- A step that neither writes `led` nor reads the identifier lets the change through. -/
theorem step_alter {s : State}
    (hop : ∀ i, s.fetch = .op (encode i) → (i ≠ .planSnap ∨ a = id) ∧ ((i ≠ .seqBoot ∧ i ≠ .idBuild) ∨ b = id))
    (hout : s.fetch ≠ .outside (.rst true) ∨ a = id) :
    step (s.alter a b) = mapNext (State.alter a b) (step s) := by
  have hfetch := s.fetch_alter (a := a) (b := b)
  cases hf : s.fetch with
  | op w =>
    rw [hf] at hfetch
    cases hd : decode w with
    | ok i =>
      obtain ⟨hled, huid⟩ := hop i (by rw [hf, (decode_eq_ok_iff_encode w i).mp hd])
      rw [step_of_fetch_op hf hd, step_of_fetch_op hfetch hd, State.afterFetch_alter, exec_alter _ hled huid]
    | error r => rw [step_of_fetch_undecodable hf hd, step_of_fetch_undecodable hfetch hd]; rfl
  | outside τ =>
    rw [hf] at hfetch
    rw [step_of_fetch_outside hf, step_of_fetch_outside hfetch, State.afterFetch_alter, drive_alter]
    · rfl
    · rw [hf] at hout; simpa using hout
  | held =>
    rw [hf] at hfetch
    rw [step_of_fetch_held hf, step_of_fetch_held hfetch, State.afterFetch_alter]; rfl

end alter

/-- What is fetched at the scheduler level past BOOT does not read the identifier. -/
theorem fetched_ne_uid_reader {s : State} (hi : s.issue = none) (hst : s.st ≠ .boot) {i : Instr}
    (hf : s.fetch = .op (encode i)) : i ≠ .seqBoot ∧ i ≠ .idBuild := by
  rcases fetched_of_noIssue hi hf with rfl | rfl
  · cases h : s.st <;> simp [seqInstr, h] at hst ⊢
  · simp

/-- Settles O59: past BOOT only SEQ.BOOT and ID.BUILD would read the identifier, and neither is fetched. -/
theorem uidReadOnceAtStartup : Obligations.UidReadOnceAtStartup := fun s u hi hst =>
  step_alter (a := id) (b := fun _ => u) (s := s)
    (fun _ hf => ⟨.inr rfl, .inl (fetched_ne_uid_reader hi hst hf)⟩) (.inr rfl)

theorem mapNext_mapNext (f g : State → State) (o : Host.Outcome State Fault Refusal) :
    mapNext f (mapNext g o) = mapNext (f ∘ g) o := by cases o <;> rfl

/-- PLAN.SNAP writes `led` where it runs, and is stuck elsewhere. -/
theorem exec_planSnap_clearLed (s : State) (l : Bool) :
    mapNext (fun t => { t with led := false }) (exec .planSnap { s with led := l }) =
      mapNext (fun t => { t with led := false }) (exec .planSnap s) := by
  by_cases hst : s.st = .planSnap
  · rw [exec_planSnap_of hst, exec_planSnap_of (s := { s with led := l }) hst]
    cases jitterInContract s.jitterIn <;> rfl
  · rw [exec_planSnap_stuck hst, exec_planSnap_stuck (s := { s with led := l }) hst]; rfl

/-- Settles O60: PLAN.SNAP and a reset write `led`, and every other step lets a change of it through. -/
theorem ledIsNeverRead : Obligations.LedIsNeverRead := by
  intro s l
  have hfetch : ({ s with led := l } : State).fetch = s.fetch := rfl
  have hafter : ({ s with led := l } : State).afterFetch = { s.afterFetch with led := l } :=
    s.afterFetch_alter (a := fun _ => l) (b := id)
  by_cases hsnap : s.fetch = .op (encode .planSnap)
  · rw [step_of_fetch_encode hsnap, step_of_fetch_encode (hfetch.trans hsnap), hafter]
    exact exec_planSnap_clearLed s.afterFetch l
  by_cases hrst : s.fetch = .outside (.rst true)
  · rw [step_of_fetch_outside hrst, step_of_fetch_outside (hfetch.trans hrst), hafter]; rfl
  · have hstep : step { s with led := l } = mapNext (State.alter (fun _ => l) id) (step s) :=
      step_alter (a := fun _ => l) (fun _ hf => ⟨.inl fun hi => hsnap (hi ▸ hf), .inr rfl⟩) (.inl hrst)
    rw [hstep, mapNext_mapNext]; rfl

end Sys2Proof.Machine
end
